-- ==== Sys2Proof/Word.lean ====
section
/-! DEFINITION. The value types of spec/00_scope.md rule R9: `u8`, `u32` and finite byte sequences.
No value of the block is signed. -/

namespace Sys2Proof

/-- `u8` of R9. -/
abbrev Byte := BitVec 8

/-- `u32` of R9: bit 0 is the least significant bit. -/
abbrev Word := BitVec 32

/-- `Bytes` of R9: a finite sequence of `u8`, lowest offset first. -/
abbrev Bytes := List Byte

end Sys2Proof
end

