-- ==== Sys2Proof/Config.lean ====
section
/-! DEFINITION. The fixed parameters of spec/00_scope.md rule R7. Rule R8: no parameter of this block is left
open, so this file holds constants only; the spec leaves no result undefined, so there is no free value. -/

namespace Sys2Proof.Config

/-- POLY_NORMAL: the generator with its most significant coefficient first. -/
def polyNormal : Word := 0x04C11DB7#32

/-- POLY_REFL: the reflected form the right-shifting register uses (R100, 90_conflicts.md C7). -/
def polyRefl : Word := 0xEDB88320#32

/-- CRC_INIT. -/
def crcInit : Word := 0xFFFFFFFF#32

/-- FIELD_LEN: width of the model and version fields. -/
@[simp] def fieldLen : Nat := 8

/-- UNUSED_COUNT times UNUSED_WIDTH: bytes 16..47 of the header. -/
@[simp] def unusedSize : Nat := 32

/-- Offset of the filesize field. -/
@[simp] def filesizeOffset : Nat := 48

/-- Offset of the crc field. -/
@[simp] def crcOffset : Nat := 52

/-- HEADER_SIZE. -/
@[simp] def headerSize : Nat := 56

/-- PAD_SIZE. -/
@[simp] def padSize : Nat := 1992

/-- PAYLOAD_OFFSET. -/
@[simp] def payloadOffset : Nat := 2048

/-- MAX_PAYLOAD: the largest length the 4-byte filesize field, or a BYTES length prefix, can hold. -/
def maxPayload : Nat := 4294967295

end Sys2Proof.Config
end

