-- ==== Sys2Proof/Syntax.lean ====
section
/-! DEFINITION. The commands: one constructor per row of spec/opcode_table.json, with the operands of
spec/30_encoding.md rule R63 in their order. This is the ABSTRACT form of a command (R65): a BYTES operand may
have any length. -/

namespace Sys2Proof

/-- A legal command of R63. A word that decodes as ILLEGAL is no command (R67). -/
inductive Instr where
  /-- CRC.SEED, OPC 0x01 (R110). -/
  | crcSeed (seed : Word)
  /-- CRC.BYTE, OPC 0x02; the byte is the word's IMM8 (R66, R111). -/
  | crcByte (b : Byte)
  /-- CRC.ACCUM, OPC 0x03 (R112). -/
  | crcAccum (data : Bytes)
  /-- CRC.READ, OPC 0x04 (R113). -/
  | crcRead
  /-- HDR.ENCODE, OPC 0x10 (R136). -/
  | hdrEncode (model version : Bytes) (payloadLen : Word)
  /-- HDR.SERIALIZE, OPC 0x11 (R137). -/
  | hdrSerialize
  /-- HDR.SETCRC, OPC 0x12 (R138). -/
  | hdrSetcrc (value : Word)
  /-- IMG.BUILD, OPC 0x20 (R161). -/
  | imgBuild (model version payload : Bytes)
deriving DecidableEq, Repr

end Sys2Proof
end

