-- ==== Sys2Proof/WellFormed.lean ====
section
/-! DEFINITION. Which commands have a stream form. The only check is the length prefix of a BYTES operand
(spec/30_encoding.md rule R65): every other operand is bounded by its type (R64). -/

namespace Sys2Proof

/-- A BYTES operand fits its 4-byte length prefix: `0 <= L <= 2^32 - 1` (R65). -/
def bytesFit (b : Bytes) : Bool := decide (b.length ≤ Config.maxPayload)

/-- The command has a stream form (R65). -/
def wellFormed : Instr → Bool
  | .crcSeed _ => true
  | .crcByte _ => true
  | .crcAccum data => bytesFit data
  | .crcRead => true
  | .hdrEncode model version _ => bytesFit model && bytesFit version
  | .hdrSerialize => true
  | .hdrSetcrc _ => true
  | .imgBuild model version payload => bytesFit model && bytesFit version && bytesFit payload

end Sys2Proof
end

