-- ==== Sys2Proof/Decode.lean ====
section
/-! DEFINITION. The command word and the byte stream of spec/30_encoding.md: decoding, total on any bytes
(R67), and after it the encoder (R61, R63, R65). -/

namespace Sys2Proof

/-! ### Byte order and filling (R9, R40) -/

/-- `zeros(n)` of R9. -/
def zeros (n : Nat) : Bytes := List.replicate n 0#8

/-- `le32(v)` of R9 and R40: the least significant byte first. -/
def le32 (v : Word) : Bytes :=
  [v.extractLsb' 0 8, v.extractLsb' 8 8, v.extractLsb' 16 8, v.extractLsb' 24 8]

/-- `from_le32` of R9, defined on 4-byte sequences only: `none` elsewhere. -/
def fromLe32 : Bytes → Option Word
  | [b0, b1, b2, b3] => some (b3 ++ b2 ++ b1 ++ b0)
  | _ => none

/-! ### The command word (R61, R63, R67) -/

/-- The operations of the opcode map (R63). -/
inductive Opcode where
  | crcSeed | crcByte | crcAccum | crcRead | hdrEncode | hdrSerialize | hdrSetcrc | imgBuild
deriving DecidableEq, Repr

/-- The OPC value of each operation (R63). -/
def opcodeCode : Opcode → Byte
  | .crcSeed => 0x01#8
  | .crcByte => 0x02#8
  | .crcAccum => 0x03#8
  | .crcRead => 0x04#8
  | .hdrEncode => 0x10#8
  | .hdrSerialize => 0x11#8
  | .hdrSetcrc => 0x12#8
  | .imgBuild => 0x20#8

/-- Bits 7:0 of the command word (R61). -/
def opcField (w : Word) : Byte := w.extractLsb' 0 8

/-- Bits 15:8 of the command word (R61). -/
def immField (w : Word) : Byte := w.extractLsb' 8 8

/-- Bits 31:16 of the command word (R61). -/
def rsvdField (w : Word) : BitVec 16 := w.extractLsb' 16 16

/-- The operation of an OPC value; `none` for a reserved one (R63, R68). -/
def opcodeOf (b : Byte) : Option Opcode :=
  if b = 0x01#8 then some .crcSeed
  else if b = 0x02#8 then some .crcByte
  else if b = 0x03#8 then some .crcAccum
  else if b = 0x04#8 then some .crcRead
  else if b = 0x10#8 then some .hdrEncode
  else if b = 0x11#8 then some .hdrSerialize
  else if b = 0x12#8 then some .hdrSetcrc
  else if b = 0x20#8 then some .imgBuild
  else none

/-- `decode(w)` of R67: the operation of a legal word, `none` for ILLEGAL. The checks are those of R67, in its
order: RSVD, the opcode map, IMM8 outside CRC.BYTE. -/
def decodeWord (w : Word) : Option Opcode :=
  if rsvdField w ≠ 0#16 then none
  else
    match opcodeOf (opcField w) with
    | none => none
    | some op => if op ≠ .crcByte ∧ immField w ≠ 0#8 then none else some op

/-! ### Operands in the stream (R64, R65) -/

/-- A U32 operand, `le32(v)`, at the front of the stream; `none` when its bytes are not all there. -/
def takeU32 : Bytes → Option (Word × Bytes)
  | b0 :: b1 :: b2 :: b3 :: rest => some (b3 ++ b2 ++ b1 ++ b0, rest)
  | _ => none

/-- A BYTES operand, `le32(L) ++ b`, at the front of the stream; `none` when its bytes are not all there. -/
def takeBytes (bs : Bytes) : Option (Bytes × Bytes) :=
  match takeU32 bs with
  | none => none
  | some (n, rest) =>
    if n.toNat ≤ rest.length then some (rest.take n.toNat, rest.drop n.toNat) else none

/-- CRC.ACCUM's operand (R63). -/
def takeAccum (bs : Bytes) : Option (Instr × Bytes) :=
  match takeBytes bs with
  | none => none
  | some (data, rest) => some (.crcAccum data, rest)

/-- HDR.ENCODE's three operands (R63). -/
def takeEncode (bs : Bytes) : Option (Instr × Bytes) :=
  match takeBytes bs with
  | none => none
  | some (model, bs1) =>
    match takeBytes bs1 with
    | none => none
    | some (version, bs2) =>
      match takeU32 bs2 with
      | none => none
      | some (n, rest) => some (.hdrEncode model version n, rest)

/-- IMG.BUILD's three operands (R63). -/
def takeBuild (bs : Bytes) : Option (Instr × Bytes) :=
  match takeBytes bs with
  | none => none
  | some (model, bs1) =>
    match takeBytes bs1 with
    | none => none
    | some (version, bs2) =>
      match takeBytes bs2 with
      | none => none
      | some (payload, rest) => some (.imgBuild model version payload, rest)

/-- The operands of an operation, read in index order with no padding (R63, R65); `imm` is the word's IMM8, which
CRC.BYTE alone reads (R66). -/
def takeOperands (op : Opcode) (imm : Byte) (bs : Bytes) : Option (Instr × Bytes) :=
  match op with
  | .crcSeed => (takeU32 bs).map fun p => (.crcSeed p.1, p.2)
  | .crcByte => some (.crcByte imm, bs)
  | .crcAccum => takeAccum bs
  | .crcRead => some (.crcRead, bs)
  | .hdrEncode => takeEncode bs
  | .hdrSerialize => some (.hdrSerialize, bs)
  | .hdrSetcrc => (takeU32 bs).map fun p => (.hdrSetcrc p.1, p.2)
  | .imgBuild => takeBuild bs

/-- What stands at the front of a delivered byte stream. -/
inductive Decoded where
  /-- A command, complete with its operands, and the bytes after it. -/
  | command (i : Instr) (rest : Bytes)
  /-- An ILLEGAL word, which has no operands, and the bytes after it (R67). -/
  | illegal (w : Word) (rest : Bytes)
  /-- The word or an operand is not delivered in full: not a command yet (R67). -/
  | incomplete
deriving DecidableEq, Repr

/-- Decoding of the stream: total on any bytes (R65, R67). -/
def decode (bs : Bytes) : Decoded :=
  match takeU32 bs with
  | none => .incomplete
  | some (w, rest) =>
    match decodeWord w with
    | none => .illegal w rest
    | some op =>
      match takeOperands op (immField w) rest with
      | none => .incomplete
      | some (i, rest') => .command i rest'

/-! ### The encoder (R61, R63, R65) -/

/-- The operation of a command. -/
def opcodeOfInstr : Instr → Opcode
  | .crcSeed _ => .crcSeed
  | .crcByte _ => .crcByte
  | .crcAccum _ => .crcAccum
  | .crcRead => .crcRead
  | .hdrEncode _ _ _ => .hdrEncode
  | .hdrSerialize => .hdrSerialize
  | .hdrSetcrc _ => .hdrSetcrc
  | .imgBuild _ _ _ => .imgBuild

/-- IMM8: CRC.BYTE's data byte, 0 for every other command (R61, R66). -/
def immOfInstr : Instr → Byte
  | .crcByte b => b
  | _ => 0#8

/-- The CMD word: RSVD, IMM8, OPC (R61). -/
def encodeWord (i : Instr) : Word :=
  0#16 ++ immOfInstr i ++ opcodeCode (opcodeOfInstr i)

/-- A BYTES operand's stream form: `le32(len(b)) ++ b` (R65). -/
def encodeBytes (b : Bytes) : Bytes := le32 (BitVec.ofNat 32 b.length) ++ b

/-- The operands' stream form (R63, R65). -/
def encodeOperands : Instr → Bytes
  | .crcSeed seed => le32 seed
  | .crcByte _ => []
  | .crcAccum data => encodeBytes data
  | .crcRead => []
  | .hdrEncode model version n => encodeBytes model ++ encodeBytes version ++ le32 n
  | .hdrSerialize => []
  | .hdrSetcrc value => le32 value
  | .imgBuild model version payload => encodeBytes model ++ encodeBytes version ++ encodeBytes payload

/-- A command's stream form (R65). It stands for the command only when `wellFormed`. -/
def encode (i : Instr) : Bytes := le32 (encodeWord i) ++ encodeOperands i

/-! ### A word of the opcode table as stream bytes -/

/-- The `n` bytes of a number, the least significant first: how the stream lays a word out (R65). -/
def numberBytes : Nat → Nat → Bytes
  | 0, _ => []
  | n + 1, w => BitVec.ofNat 8 w :: numberBytes n (w / 256)

/-- The longest command whose operand words are all zero is HDR.ENCODE's or IMG.BUILD's: a word and three operand
words. Bits of the instruction above `nbits` are 0. -/
def tableBytes (nbits w : Nat) : Bytes := numberBytes ((nbits + 7) / 8) w ++ zeros 12

/-- The bytes the front of `bs` spends on its one command or ILLEGAL word. -/
def firstOf (bs : Bytes) : Bytes :=
  match decode bs with
  | .command _ rest => bs.take (bs.length - rest.length)
  | .illegal _ rest => bs.take (bs.length - rest.length)
  | .incomplete => bs

/-- The instruction the decoder reads from a word of spec/opcode_table.json whose operand words are zero. -/
def decodeTableWord (nbits w : Nat) : Option Instr :=
  match decode (tableBytes nbits w) with
  | .command i _ => some i
  | .illegal _ _ => none
  | .incomplete => none

end Sys2Proof
end

