-- ==== Sys2Proof/Machine/State.lean ====
section
/-! DEFINITION. The state of the block (spec/10_state.md rule R31), the reasons a step can stop, and reset
(spec/70_reset_and_hazards.md rule R240). The four `Option` registers are the spec's own empty marks (R29). -/

namespace Sys2Proof.Machine

/-- What HDR holds when it is written: exactly HEADER_SIZE bytes (R23). -/
structure Header where
  bytes : Bytes
  size : bytes.length = Config.headerSize
deriving DecidableEq, Repr

/-- Whether reset has been asserted yet (R241). DEDUCED, log entry 5. -/
inductive Phase where
  | beforeReset
  | afterReset
deriving DecidableEq, Repr

/-- One move of the host (spec/60_exceptions.md rule R220). Observing changes nothing (R49) and so is a function of
the state, not a move. DESIGN CHOICE, log entry 1. -/
inductive HostMove where
  /-- The reset signal (R240). -/
  | reset
  /-- Some bytes of the command stream arrive (R65); a command may come in any pieces. -/
  | deliver (bs : Bytes)
  /-- A whole command in its abstract form, mnemonic and operand values (R65). -/
  | issue (i : Instr)
deriving DecidableEq, Repr

/-- Why the machine stands still without the spec calling it an error: the stuck states of
spec/93_implementation_defined.md U13. (The spec's own faults are NEXT states: they write STATUS, R205.) -/
inductive Fault where
  /-- Raised by `step` when nothing is delivered and the host has no move left: after reset the block waits for its
  first command (R241). SAFE: no step is taken, so no claim about a next state can be proved. -/
  | waitingForCommand
  /-- Raised by `step` when a command's word or operands are not all delivered and the host has no move left: the
  block waits (R67, U13). SAFE: as above. -/
  | waitingForOperands
deriving DecidableEq, Repr

/-- Why the model gives no next state. -/
inductive Refusal where
  /-- Raised by `exec` for an instruction that has no meaning yet: none is left. SAFE. -/
  | notModelled (mnemonic : String)
  /-- Raised by every meaning, and by an ILLEGAL word, while reset has not been asserted: a command issued before any
  reset is refused (R241, U4). SAFE: nothing is assumed of any register. -/
  | beforeReset
  /-- Raised by `step` when the host asserts reset, or issues a command in abstract form, inside a command it has begun
  to deliver: R220 and R240 rule both out and give no effect. SAFE (DESIGN CHOICE, log entry 6). -/
  | commandBrokenOff
deriving DecidableEq, Repr

/-- The whole state: R31's five registers, then the model's own fields (log entries 1, 2 and 5). -/
structure State where
  /-- ACC: a u32, or `none` for UNSEEDED (R21). -/
  acc : Option Word
  /-- HDR: 56 bytes, or `none` for UNWRITTEN (R23). -/
  hdr : Option Header
  /-- OUT: a byte sequence, or `none` for NONE (R25). -/
  out : Option Bytes
  /-- RESULT: a u32, or `none` for UNWRITTEN (R26). -/
  result : Option Word
  /-- STATUS (R27). -/
  status : Word
  /-- Whether reset has been asserted (R241). -/
  phase : Phase
  /-- Bytes delivered and not yet consumed (R65). -/
  stream : Bytes
  /-- The host's moves still to come, first one first (R220). -/
  host : List HostMove
deriving DecidableEq, Repr

/-- The state right after reset (R31, R240), with nothing delivered and no move of the host pending. -/
def State.reset : State where
  acc := none
  hdr := none
  out := none
  result := none
  status := 0#32
  phase := .afterReset
  stream := []
  host := []

/-- What executing a command or a step answers. -/
abbrev Result := Host.Outcome State Fault Refusal

end Sys2Proof.Machine
end

