-- ==== Sys2Proof/Machine/Flags.lean ====
section
/-! DEFINITION. STATUS, the only flag-like state (spec/10_state.md rules R27 and R28): its fields, the cause codes
(spec/60_exceptions.md rule R201), and the writes a command's completion or a fault makes to it. -/

namespace Sys2Proof.Machine

/-! ### Bit fields of a word -/

/-- `v[lo+len-1:lo]` (R9). -/
def getBits (lo len : Nat) (w : Word) : BitVec len := w.extractLsb' lo len

/-- The word whose bits `lo+len-1:lo` are 1. -/
def fieldMask (lo len : Nat) : Word := (BitVec.allOnes len).setWidth 32 <<< lo

/-- `w` with bits `lo+len-1:lo` replaced by `v`. -/
def putBits (lo len : Nat) (v : BitVec len) (w : Word) : Word :=
  (w &&& ~~~(fieldMask lo len)) ||| (v.setWidth 32 <<< lo)

/-! ### The fields of STATUS (R27) -/

/-- FAULT, bit 0: a fault is recorded and the block has halted. -/
def statusFault (w : Word) : Bool := w.getLsbD 0

/-- CAUSE, bits 7:4. -/
def statusCause (w : Word) : BitVec 4 := getBits 4 4 w

/-- FOPC, bits 15:8. -/
def statusFopc (w : Word) : Byte := getBits 8 8 w

/-- FARG, bits 17:16. -/
def statusFarg (w : Word) : BitVec 2 := getBits 16 2 w

/-- ACCV, bit 24. -/
def statusAccv (w : Word) : Bool := w.getLsbD 24

/-- HDRV, bit 25. -/
def statusHdrv (w : Word) : Bool := w.getLsbD 25

/-- OUTV, bit 26. -/
def statusOutv (w : Word) : Bool := w.getLsbD 26

/-- RESV, bit 27. -/
def statusResv (w : Word) : Bool := w.getLsbD 27

/-- The bits R27 lists as reserved: 3:1, 23:18 and 31:28. -/
def statusReserved (w : Word) : Word := w &&& 0xF0FC000E#32

/-- The four validity bits, 27:24: a fault leaves them as they are (R205). -/
def statusValid (w : Word) : BitVec 4 := getBits 24 4 w

/-! ### Cause codes (R201) -/

/-- The causes of R201. -/
inductive Cause where
  | noFault
  | invalidArgument
  | lengthOverflow
  | illegalCommand
  | accUnseeded
  | hdrUnwritten
deriving DecidableEq, Repr

/-- The code STATUS.CAUSE holds (R201). -/
def causeCode : Cause → BitVec 4
  | .noFault => 0#4
  | .invalidArgument => 1#4
  | .lengthOverflow => 2#4
  | .illegalCommand => 3#4
  | .accUnseeded => 4#4
  | .hdrUnwritten => 5#4

/-- The cause a code names. Codes 6..15 are never written, and a reader that meets one gets no cause
(spec/93_implementation_defined.md U9). -/
def causeOf (c : BitVec 4) : Option Cause :=
  if c = 0#4 then some .noFault
  else if c = 1#4 then some .invalidArgument
  else if c = 2#4 then some .lengthOverflow
  else if c = 3#4 then some .illegalCommand
  else if c = 4#4 then some .accUnseeded
  else if c = 5#4 then some .hdrUnwritten
  else none

/-! ### Writes to STATUS -/

/-- Set bit `k`: how a completing command raises a validity bit (R27). -/
def setStatusBit (k : Nat) (w : Word) : Word := putBits k 1 1#1 w

/-- Fault entry's writes: FAULT, CAUSE, FOPC and FARG, nothing else (R202, R205). -/
def recordFault (cause : Cause) (fopc : Byte) (farg : BitVec 2) (w : Word) : Word :=
  putBits 16 2 farg (putBits 8 8 fopc (putBits 4 4 (causeCode cause) (setStatusBit 0 w)))

end Sys2Proof.Machine
end

