-- ==== Sys2Proof/Machine/Operands.lean ====
section
/-! DEFINITION. What a command checks of its operands before it reads any state (spec/60_exceptions.md rule R203)
and the string field they become (spec/41_header_encoder.md rules R130, R131, R134; spec/42_image_builder.md
rule R164). The operands' stream forms are in Decode.lean. -/

namespace Sys2Proof.Machine

/-- R134: a model or version operand with a 0x00 byte at any position is not representable. -/
def hasZeroByte (b : Bytes) : Bool := b.contains 0#8

/-- R164: the length does not fit the 4-byte filesize field. -/
def lengthOverflows (b : Bytes) : Bool := decide (Config.maxPayload < b.length)

/-- The first failing check of a model and a version operand, in operand order, with its operand index
(R134, R203). -/
def checkIdentifiers (model version : Bytes) : Option (Cause × BitVec 2) :=
  if hasZeroByte model then some (.invalidArgument, 1#2)
  else if hasZeroByte version then some (.invalidArgument, 2#2)
  else none

/-- IMG.BUILD's checks in operand order (R161, R203). -/
def checkBuild (model version payload : Bytes) : Option (Cause × BitVec 2) :=
  match checkIdentifiers model version with
  | some bad => some bad
  | none => if lengthOverflows payload then some (.lengthOverflow, 3#2) else none

/-- `field8` of R130: truncate to 8 bytes, or fill with zeros up to 8 (R131). -/
def field8 (s : Bytes) : Bytes :=
  s.take (min s.length Config.fieldLen) ++ zeros (Config.fieldLen - min s.length Config.fieldLen)

/-- A length as the u32 of the filesize field (R133). -/
def lengthWord (b : Bytes) : Word := BitVec.ofNat 32 b.length

end Sys2Proof.Machine
end

