-- ==== Sys2Proof/Machine/Ops.lean ====
section
/-! DEFINITION. The named operations over the registers and byte buffers that the meanings share: slices of a
buffer, register writes, taking a fault, the gate every command passes, and reset. -/

namespace Sys2Proof.Machine

/-! ### Buffers (R9) -/

/-- `b[i:j]` (R9). -/
def slice (b : Bytes) (i j : Nat) : Bytes := (b.take j).drop i

/-- `MemRead(buf, off, n)` of R9, defined only inside the buffer. -/
def memRead (buf : Bytes) (off n : Nat) : Option Bytes :=
  if off + n ≤ buf.length then some (slice buf off (off + n)) else none

/-- `MemWrite(buf, off, n, v)` of R9 with `n = len(v)`, for a write inside the buffer. -/
def splice (buf : Bytes) (off : Nat) (v : Bytes) : Bytes :=
  buf.take off ++ v ++ buf.drop (off + v.length)

/-! ### Register writes -/

/-- `ACC <- v` (R21). -/
def State.writeAcc (v : Word) (s : State) : State := { s with acc := some v }

/-- `HDR <- h` (R23). -/
def State.writeHdr (h : Header) (s : State) : State := { s with hdr := some h }

/-- `OUT <- b`, written whole (R25). -/
def State.writeOut (b : Bytes) (s : State) : State := { s with out := some b }

/-- `RESULT <- v` (R26). -/
def State.writeResult (v : Word) (s : State) : State := { s with result := some v }

/-- `STATUS.ACCV <- 1` (R27). -/
def State.setAccv (s : State) : State := { s with status := setStatusBit 24 s.status }

/-- `STATUS.HDRV <- 1` (R27). -/
def State.setHdrv (s : State) : State := { s with status := setStatusBit 25 s.status }

/-- `STATUS.OUTV <- 1` (R27). -/
def State.setOutv (s : State) : State := { s with status := setStatusBit 26 s.status }

/-- `STATUS.RESV <- 1` (R27). -/
def State.setResv (s : State) : State := { s with status := setStatusBit 27 s.status }

/-! ### Taking a fault (R200, R205) -/

/-- Fault entry: STATUS records the fault and no other state changes (R205). -/
def State.enterFault (cause : Cause) (fopc : Byte) (farg : BitVec 2) (s : State) : State :=
  { s with status := recordFault cause fopc farg s.status }

/-- `raise Fault(cause, arg)` (R9): the command ends in a next state, halted, with nothing else written. The block
has no return from a fault; only reset clears it (R207). -/
def raiseFault (cause : Cause) (fopc : Byte) (farg : BitVec 2) (s : State) : Result :=
  .next (s.enterFault cause fopc farg)

/-! ### The gate every command passes -/

/-- What stands before every command: before any reset it is refused (R241); while STATUS.FAULT = 1 it is consumed
with no effect (R206); otherwise it has its effect. -/
def runCommand (s : State) (effect : Result) : Result :=
  match s.phase with
  | .beforeReset => .refused .beforeReset
  | .afterReset => if statusFault s.status then .next s else effect

/-- A read of ACC: its value, or the fault ACC_UNSEEDED with FARG 0 (R29). -/
def readAcc (op : Opcode) (s : State) (effect : Word → Result) : Result :=
  match s.acc with
  | none => raiseFault .accUnseeded (opcodeCode op) 0#2 s
  | some c => effect c

/-- A read of HDR: its bytes, or the fault HDR_UNWRITTEN with FARG 0 (R29). -/
def readHdr (op : Opcode) (s : State) (effect : Header → Result) : Result :=
  match s.hdr with
  | none => raiseFault .hdrUnwritten (opcodeCode op) 0#2 s
  | some h => effect h

/-- The effect of a command whose operands pass their checks, or the fault the first failing check names (R203). -/
def checked (op : Opcode) (check : Option (Cause × BitVec 2)) (s : State) (effect : Result) : Result :=
  match check with
  | some (cause, farg) => raiseFault cause (opcodeCode op) farg s
  | none => effect

/-- An ILLEGAL word, complete as soon as it is delivered: ILLEGAL_COMMAND with FOPC the word's bits 7:0
(R67, R202). -/
def illegalCommand (w : Word) (s : State) : Result :=
  runCommand s (raiseFault .illegalCommand (opcField w) 0#2 s)

/-! ### Reset (R240) -/

/-- The reset signal: every register at its reset value, nothing delivered. The host's later moves are the host's
and stay (log entry 7). -/
def State.applyReset (s : State) : State := { State.reset with host := s.host }

/-! ### What the host observes (R29, R32, R49) -/

/-- OUT, RESULT and STATUS as the host reads them; an empty OUT or RESULT reads as no value. -/
structure Observation where
  out : Option Bytes
  result : Option Word
  status : Word
deriving DecidableEq, Repr

/-- The host's view. Before the first reset it is nothing that can be relied on (R241). Reading changes no state
(R49): it is a function of the state. -/
def observe (s : State) : Option Observation :=
  match s.phase with
  | .beforeReset => none
  | .afterReset => some ⟨s.out, s.result, s.status⟩

/-- The cause the host reads in STATUS, none for a code no command writes (U9). -/
def observedCause (s : State) : Option Cause := causeOf (statusCause s.status)

/-! ### One command after another (R51) -/

/-- Go on from a next state; a fault or a refusal ends the sequence. -/
def andThen (r : Result) (next : State → Result) : Result :=
  match r with
  | .next s => next s
  | .fault f => .fault f
  | .refused q => .refused q

end Sys2Proof.Machine
end

