-- ==== Sys2Proof/Machine/Crc.lean ====
section
/-! DEFINITION. The CRC32 engine and its four commands (spec/40_crc_engine.md). ACC is never finalized:
no final XOR anywhere (spec/10_state.md rule R22, spec/90_conflicts.md C1). -/

namespace Sys2Proof.Machine

/-- `bitstep` (R101): test bit 0, shift right logically, XOR the reflected polynomial if it was 1. -/
def bitstep (c : Word) : Word :=
  if c.getLsbD 0 then (c >>> 1) ^^^ Config.polyRefl else c >>> 1

/-- `crc_byte` (R102): XOR the byte into bits 7:0, then eight bit steps. -/
def crcByte (c : Word) (b : Byte) : Word := Nat.iterate bitstep 8 (c ^^^ b.setWidth 32)

/-- `accumulate` (R104): the bytes in order, from offset 0 upward. -/
def accumulate (s : Word) (d : Bytes) : Word := d.foldl crcByte s

/-- CRC.SEED (R110). -/
def execCrcSeed (seed : Word) (s : State) : Result :=
  runCommand s (.next (s.writeAcc seed).setAccv)

/-- CRC.BYTE (R111). -/
def execCrcByte (b : Byte) (s : State) : Result :=
  runCommand s (readAcc .crcByte s fun c => .next (s.writeAcc (crcByte c b)))

/-- CRC.ACCUM (R112). -/
def execCrcAccum (data : Bytes) (s : State) : Result :=
  runCommand s (readAcc .crcAccum s fun c => .next (s.writeAcc (accumulate c data)))

/-- CRC.READ (R113): the raw accumulator. -/
def execCrcRead (s : State) : Result :=
  runCommand s (readAcc .crcRead s fun c => .next (s.writeResult c).setResv)

end Sys2Proof.Machine
end

