-- ==== Sys2Proof/Machine/HeaderEncoder.lean ====
section
/-! DEFINITION. The header encoder (spec/41_header_encoder.md): the header as a byte function, its field views
(spec/10_state.md rule R23) and its three commands. -/

namespace Sys2Proof.Machine

/-- `header_bytes` (R139): model, version, unused, filesize, crc at offsets 0, 8, 16, 48, 52. -/
def headerBytes (m v : Bytes) (n c : Word) : Bytes :=
  field8 m ++ field8 v ++ zeros Config.unusedSize ++ le32 n ++ le32 c

theorem field8_length (s : Bytes) : (field8 s).length = Config.fieldLen := by
  simp [field8, zeros]

/-- `len(header_bytes(...)) = HEADER_SIZE` (R139). -/
theorem headerBytes_length (m v : Bytes) (n c : Word) :
    (headerBytes m v n c).length = Config.headerSize := by
  simp [headerBytes, field8_length, zeros, le32]

/-- The header HDR holds for these fields (R136, R139). -/
def makeHeader (m v : Bytes) (n c : Word) : Header := ⟨headerBytes m v n c, headerBytes_length m v n c⟩

theorem splice_length (buf v : Bytes) (off : Nat) (h : off + v.length ≤ buf.length) :
    (splice buf off v).length = buf.length := by
  simp [splice]
  omega

/-- The crc field lies inside the header. -/
theorem setCrcBytes_length (h : Header) (v : Word) :
    (splice h.bytes Config.crcOffset (le32 v)).length = Config.headerSize := by
  rw [splice_length _ _ _ (by simp [h.size, le32]), h.size]

/-- `HDR[52:56] <- le32(value)`, bytes 0..51 unchanged (R138). -/
def setCrcField (h : Header) (v : Word) : Header :=
  ⟨splice h.bytes Config.crcOffset (le32 v), setCrcBytes_length h v⟩

/-! ### The field views of HDR (R23) -/

/-- The model view, `HDR[0:8]`. -/
def modelView (h : Bytes) : Bytes := slice h 0 8

/-- The version view, `HDR[8:16]`. -/
def versionView (h : Bytes) : Bytes := slice h 8 16

/-- The unused[k] view, `from_le32(HDR[16+4k : 20+4k])`. -/
def unusedView (h : Bytes) (k : Nat) : Option Word := fromLe32 (slice h (16 + 4 * k) (20 + 4 * k))

/-- The filesize view, `from_le32(HDR[48:52])`. -/
def filesizeView (h : Bytes) : Option Word :=
  fromLe32 (slice h Config.filesizeOffset Config.crcOffset)

/-- The crc view, `from_le32(HDR[52:56])`. -/
def crcView (h : Bytes) : Option Word := fromLe32 (slice h Config.crcOffset Config.headerSize)

/-! ### The commands -/

/-- HDR.ENCODE (R136): the whole header, its crc field at zero. -/
def execHdrEncode (model version : Bytes) (payloadLen : Word) (s : State) : Result :=
  runCommand s (checked .hdrEncode (checkIdentifiers model version) s
    (.next (s.writeHdr (makeHeader model version payloadLen 0#32)).setHdrv))

/-- HDR.SERIALIZE (R137). -/
def execHdrSerialize (s : State) : Result :=
  runCommand s (readHdr .hdrSerialize s fun h => .next (s.writeOut h.bytes).setOutv)

/-- HDR.SETCRC (R138). -/
def execHdrSetcrc (value : Word) (s : State) : Result :=
  runCommand s (readHdr .hdrSetcrc s fun h => .next (s.writeHdr (setCrcField h value)))

end Sys2Proof.Machine
end

