-- ==== Sys2Proof/Machine/ImageBuilder.lean ====
section
/-! DEFINITION. The image builder (spec/42_image_builder.md): the stamped checksum, the image and IMG.BUILD. -/

namespace Sys2Proof.Machine

/-- `image_crc` (R160): the header with its crc field zero, then the payload, with no reseed between them. -/
def imageCrc (m v p : Bytes) : Word :=
  accumulate (accumulate Config.crcInit (headerBytes m v (lengthWord p) 0#32)) p

/-- The stamped header of step 4 (R161). -/
def imageHeader (m v p : Bytes) : Header := makeHeader m v (lengthWord p) (imageCrc m v p)

/-- Step 5 (R161): header, padding, payload. -/
def imageBytes (m v p : Bytes) : Bytes := (imageHeader m v p).bytes ++ zeros Config.padSize ++ p

/-- IMG.BUILD (R161). All writes take effect together; RESULT is not changed. -/
def execImgBuild (model version payload : Bytes) (s : State) : Result :=
  runCommand s (checked .imgBuild (checkBuild model version payload) s
    (.next ((((s.writeOut (imageBytes model version payload)).writeHdr
      (imageHeader model version payload)).writeAcc
      (imageCrc model version payload)).setAccv.setHdrv.setOutv)))

end Sys2Proof.Machine
end

