-- ==== Sys2Proof/Machine/Dispatch.lean ====
section
/-! DEFINITION. One arm per command, each one direct call of its meaning. -/

namespace Sys2Proof.Machine

def exec (i : Instr) (s : State) : Host.Outcome State Fault Refusal :=
  match i with
  | .crcSeed seed => Sys2Proof.Machine.execCrcSeed seed s
  | .crcByte b => Sys2Proof.Machine.execCrcByte b s
  | .crcAccum data => Sys2Proof.Machine.execCrcAccum data s
  | .crcRead => Sys2Proof.Machine.execCrcRead s
  | .hdrEncode model version payloadLen => Sys2Proof.Machine.execHdrEncode model version payloadLen s
  | .hdrSerialize => Sys2Proof.Machine.execHdrSerialize s
  | .hdrSetcrc value => Sys2Proof.Machine.execHdrSetcrc value s
  | .imgBuild model version payload => Sys2Proof.Machine.execImgBuild model version payload s

end Sys2Proof.Machine
end

