-- ==== Sys2Proof/Machine/Fetch.lean ====
section
/-! DEFINITION. What the block does next: the command at the front of the delivered stream, or, when there is none
complete, the host's next move (spec/30_encoding.md rules R65 and R67; spec/60_exceptions.md rule R220). Log entry 1. -/

namespace Sys2Proof.Machine

/-- What `fetch` finds. -/
inductive Fetched where
  /-- A command to run, in the state that has consumed it. -/
  | run (i : Instr) (s : State)
  /-- An ILLEGAL word, in the state that has consumed it. -/
  | illegal (w : Word) (s : State)
  /-- A move of the host that runs no command: a delivery or a reset. -/
  | moved (s : State)
  /-- The block waits and the host has no move. -/
  | wait (f : Fault)
  /-- The host breaks its duty. -/
  | refuse (r : Refusal)
deriving DecidableEq, Repr

/-- The stream with its first command or word consumed. -/
def State.consume (rest : Bytes) (s : State) : State := { s with stream := rest }

/-- The stuck state of an empty stream, or of one that ends inside a command (U13). -/
def waitFault (s : State) : Fault :=
  if s.stream = [] then .waitingForCommand else .waitingForOperands

/-- The host's next move, while no complete command is in the stream. A reset, or a command in abstract form, may
come only between two commands (R220, R240). -/
def hostMove (s : State) : Fetched :=
  match s.host with
  | [] => .wait (waitFault s)
  | .deliver bs :: moves => .moved { s with stream := s.stream ++ bs, host := moves }
  | .reset :: moves =>
    if s.stream = [] then .moved ({ s with host := moves } : State).applyReset
    else .refuse .commandBrokenOff
  | .issue i :: moves =>
    if s.stream = [] then .run i { s with host := moves } else .refuse .commandBrokenOff

/-- A complete command in the stream comes first, in the order of its delivery (R20, R51). -/
def fetch (s : State) : Fetched :=
  match decode s.stream with
  | .command i rest => .run i (s.consume rest)
  | .illegal w rest => .illegal w (s.consume rest)
  | .incomplete => hostMove s

/-- The bytes `step` finds for a word of the opcode table: that one instruction, its operand words zero. -/
def tableStream (nbits w : Nat) : Bytes := firstOf (tableBytes nbits w)

end Sys2Proof.Machine
end

