-- ==== Sys2Proof/Machine/Step.lean ====
section
/-! DEFINITION. One step: a command run whole (spec/20_memory.md rule R48), an ILLEGAL word's fault, or a move of
the host. -/

namespace Sys2Proof.Machine

/-- One step. -/
def step (s : State) : Host.Outcome State Fault Refusal :=
  match fetch s with
  | .run i t => exec i t
  | .illegal w t => illegalCommand w t
  | .moved t => .next t
  | .wait f => .fault f
  | .refuse r => .refused r

/-- The state whose next step runs the instruction `w`: the stream holds it, whole, and nothing else. This stands for
its delivery by the host (log entry 2). -/
def State.withFetchWord (s : State) (nbits w : Nat) : State := { s with stream := tableStream nbits w }

end Sys2Proof.Machine
end

