-- ==== Sys2Proof/Machine/Pseudo.lean ====
section
/-! DEFINITION. Sequences of commands (spec/20_memory.md rule R51) and the pseudo-instructions of
spec/30_encoding.md rule R72. A pseudo-instruction has no OPC and is no constructor of `Instr`. -/

namespace Sys2Proof.Machine

/-- Commands one after another, in issue order (R20, R51). -/
def execAll : List Instr → State → Result
  | [], s => .next s
  | i :: is, s => andThen (exec i s) (execAll is)

/-- The pseudo-instructions of R72. -/
inductive Pseudo where
  | crcInit
  | crcAccumulate (s : Word) (d : Bytes)
  | crcBytes (bs : Bytes)
deriving DecidableEq, Repr

/-- The expansions of R72. `crc.bytes` with no byte, a row R72 does not write, is no command at all: DESIGN CHOICE, log
entry 15. -/
def expand : Pseudo → List Instr
  | .crcInit => [.crcSeed Config.crcInit]
  | .crcAccumulate s d => [.crcSeed s, .crcAccum d, .crcRead]
  | .crcBytes bs => bs.map .crcByte

end Sys2Proof.Machine
end

