-- ==== Sys2Proof/Machine/Assembler.lean ====
section
/-! DEFINITION. The textual form of commands (spec/30_encoding.md rule R71): one line of characters to the commands
it stands for, pseudo-instructions expanded (R72). What R71 leaves open (blanks, letter case of hexadecimal digits
and the like) is log entry 10, what R72 leaves open (`crc.bytes` with no byte) log entry 15. -/

namespace Sys2Proof.Machine

/-! ### Characters -/

/-- The double quote. -/
def quoteChar : Char := Char.ofNat 0x22

/-- The backslash. -/
def escapeChar : Char := Char.ofNat 0x5C

/-- A space or a tab separates tokens. DESIGN CHOICE, log entry 10. -/
def isBlankChar (c : Char) : Bool := c.toNat == 0x20 || c.toNat == 0x09

/-- The value of a decimal digit. -/
def decDigit (c : Char) : Option Nat :=
  if 0x30 ≤ c.toNat ∧ c.toNat ≤ 0x39 then some (c.toNat - 0x30) else none

/-- The value of a hexadecimal digit, in either case. DESIGN CHOICE, log entry 10. -/
def hexDigit (c : Char) : Option Nat :=
  if 0x61 ≤ c.toNat ∧ c.toNat ≤ 0x66 then some (c.toNat - 0x61 + 10)
  else if 0x41 ≤ c.toNat ∧ c.toNat ≤ 0x46 then some (c.toNat - 0x41 + 10)
  else decDigit c

/-- The characters of mnemonics and numerals: lower-case letters, hexadecimal digits and the full stop. -/
def isWordChar (c : Char) : Bool :=
  (decide (0x61 ≤ c.toNat) && decide (c.toNat ≤ 0x7A)) || (hexDigit c).isSome || c.toNat == 0x2E

/-! ### Tokens -/

/-- A token of a line. -/
inductive Token where
  | word (cs : List Char)
  | str (b : Bytes)
  | comma | lbrack | rbrack | lparen | rparen
deriving DecidableEq, Repr

/-- The token of a punctuation character. -/
def punctuation (c : Char) : Option Token :=
  if c = ',' then some .comma
  else if c = '[' then some .lbrack
  else if c = ']' then some .rbrack
  else if c = '(' then some .lparen
  else if c = ')' then some .rparen
  else none

/-- Where the reader of a line stands; text read so far is held last character first. -/
inductive LexMode where
  | blank
  | word (cs : List Char)
  | str (b : Bytes)
  | escape (b : Bytes)
  | hex1 (b : Bytes)
  | hex2 (b : Bytes) (high : Nat)
deriving DecidableEq, Repr

/-- The tokens of a line; a number sign outside a string starts a comment (R71). Where no blank stands after a word, a
bracket, a parenthesis, a comma or a comment may follow it, and a quoted string may not: DESIGN CHOICE, log entry 10. -/
def lex : LexMode → List Char → Option (List Token)
  | .blank, [] => some []
  | .word w, [] => some [.word w.reverse]
  | .str _, [] => none
  | .escape _, [] => none
  | .hex1 _, [] => none
  | .hex2 _ _, [] => none
  | .blank, c :: cs =>
    if c = '#' then some []
    else if isBlankChar c then lex .blank cs
    else if c = quoteChar then lex (.str []) cs
    else if isWordChar c then lex (.word [c]) cs
    else
      match punctuation c with
      | some t => (lex .blank cs).map (t :: ·)
      | none => none
  | .word w, c :: cs =>
    if isWordChar c then lex (.word (c :: w)) cs
    else if c = '#' then some [.word w.reverse]
    else if isBlankChar c then (lex .blank cs).map (.word w.reverse :: ·)
    else
      match punctuation c with
      | some t => (lex .blank cs).map (.word w.reverse :: t :: ·)
      | none => none
  | .str b, c :: cs =>
    if c = quoteChar then (lex .blank cs).map (.str b.reverse :: ·)
    else if c = escapeChar then lex (.escape b) cs
    else if c.toNat < 128 then lex (.str (BitVec.ofNat 8 c.toNat :: b)) cs
    else none
  | .escape b, c :: cs =>
    if c = 'x' then lex (.hex1 b) cs
    else if c = quoteChar ∨ c = escapeChar then lex (.str (BitVec.ofNat 8 c.toNat :: b)) cs
    else none
  | .hex1 b, c :: cs =>
    match hexDigit c with
    | some d => lex (.hex2 b d) cs
    | none => none
  | .hex2 b high, c :: cs =>
    match hexDigit c with
    | some d => lex (.str (BitVec.ofNat 8 (16 * high + d) :: b)) cs
    | none => none

/-! ### Operands -/

/-- The number a row of digits in a base stands for. -/
def digits (base : Nat) (digit : Char → Option Nat) : Nat → List Char → Option Nat
  | n, [] => some n
  | n, c :: cs =>
    match digit c with
    | some d => digits base digit (base * n + d) cs
    | none => none

/-- A decimal or `0x` hexadecimal numeral (R71). -/
def numeral : List Char → Option Nat
  | [] => none
  | '0' :: 'x' :: [] => none
  | '0' :: 'x' :: ds => digits 16 hexDigit 0 ds
  | ds => digits 10 decDigit 0 ds

/-- A numeral in the range of a byte (R71). -/
def byteNumeral (cs : List Char) : Option Byte :=
  match numeral cs with
  | some n => if n < 256 then some (BitVec.ofNat 8 n) else none
  | none => none

/-- An operand as the text gives it. -/
inductive Operand where
  | num (n : Nat)
  | bytes (b : Bytes)
deriving DecidableEq, Repr

/-- The elements of a bracketed byte list, after its opening bracket, when it is not empty (R71). -/
def byteList : List Token → Option (Bytes × List Token)
  | .word cs :: .rbrack :: rest =>
    match byteNumeral cs with
    | some b => some ([b], rest)
    | none => none
  | .word cs :: .comma :: rest =>
    match byteNumeral cs, byteList rest with
    | some b, some (bs, rest') => some (b :: bs, rest')
    | _, _ => none
  | _ => none

/-- One operand (R71): a string, a byte list, `[]`, `zeros(n)`, or a numeral. -/
def operand : List Token → Option (Operand × List Token)
  | .str b :: rest => some (.bytes b, rest)
  | .lbrack :: .rbrack :: rest => some (.bytes [], rest)
  | .lbrack :: rest => (byteList rest).map fun p => (.bytes p.1, p.2)
  | .word cs :: .lparen :: .word ds :: .rparen :: rest =>
    if cs = ['z', 'e', 'r', 'o', 's'] then (numeral ds).map fun n => (.bytes (zeros n), rest) else none
  | .word cs :: rest => (numeral cs).map fun n => (.num n, rest)
  | _ => none

/-- One or more operands separated by commas; `fuel` bounds their number. -/
def operands : Nat → List Token → Option (List Operand)
  | 0, _ => none
  | fuel + 1, ts =>
    match operand ts with
    | some (o, []) => some [o]
    | some (o, .comma :: rest) => (operands fuel rest).map (o :: ·)
    | _ => none

/-- A U32 operand in range (R71). -/
def asU32 : Operand → Option Word
  | .num n => if n ≤ Config.maxPayload then some (BitVec.ofNat 32 n) else none
  | .bytes _ => none

/-- The byte of `crc.byte` in range (R71). -/
def asByte : Operand → Option Byte
  | .num n => if n < 256 then some (BitVec.ofNat 8 n) else none
  | .bytes _ => none

/-- A BYTES operand. -/
def asBytes : Operand → Option Bytes
  | .num _ => none
  | .bytes b => some b

/-! ### Lines -/

/-- The bytes of `crc.bytes b1, ..., bn` (R72); none at all is taken too (DESIGN CHOICE, log entry 15). -/
def asByteRow : List Operand → Option Bytes
  | [] => some []
  | o :: os =>
    match asByte o, asByteRow os with
    | some b, some bs => some (b :: bs)
    | _, _ => none

/-- A mnemonic of one operand. -/
def oneOperand {α : Type} (read : Operand → Option α) (make : α → List Instr) : List Operand → Option (List Instr)
  | [o] => (read o).map make
  | _ => none

/-- A mnemonic of no operand. -/
def noOperand (make : List Instr) : List Operand → Option (List Instr)
  | [] => some make
  | _ => none

/-- `hdr.encode` (R63, R71). -/
def assembleEncode : List Operand → Option (List Instr)
  | [m, v, n] =>
    match asBytes m, asBytes v, asU32 n with
    | some m, some v, some n => some [.hdrEncode m v n]
    | _, _, _ => none
  | _ => none

/-- `img.build` (R63, R71). -/
def assembleBuild : List Operand → Option (List Instr)
  | [m, v, p] =>
    match asBytes m, asBytes v, asBytes p with
    | some m, some v, some p => some [.imgBuild m v p]
    | _, _, _ => none
  | _ => none

/-- `crc.accumulate s, d` (R72). -/
def assembleAccumulate : List Operand → Option (List Instr)
  | [s, d] =>
    match asU32 s, asBytes d with
    | some s, some d => some (expand (.crcAccumulate s d))
    | _, _ => none
  | _ => none

/-- The commands of a mnemonic and its operands (R71, R72). The bare mnemonic `crc.bytes` stands for no command: DESIGN
CHOICE, log entry 15. -/
def assemble (mnemonic : List Char) (ops : List Operand) : Option (List Instr) :=
  if mnemonic = ['c', 'r', 'c', '.', 's', 'e', 'e', 'd'] then oneOperand asU32 (fun v => [.crcSeed v]) ops
  else if mnemonic = ['c', 'r', 'c', '.', 'b', 'y', 't', 'e'] then oneOperand asByte (fun b => [.crcByte b]) ops
  else if mnemonic = ['c', 'r', 'c', '.', 'a', 'c', 'c', 'u', 'm'] then
    oneOperand asBytes (fun d => [.crcAccum d]) ops
  else if mnemonic = ['c', 'r', 'c', '.', 'r', 'e', 'a', 'd'] then noOperand [.crcRead] ops
  else if mnemonic = ['h', 'd', 'r', '.', 'e', 'n', 'c', 'o', 'd', 'e'] then assembleEncode ops
  else if mnemonic = ['h', 'd', 'r', '.', 's', 'e', 'r', 'i', 'a', 'l', 'i', 'z', 'e'] then
    noOperand [.hdrSerialize] ops
  else if mnemonic = ['h', 'd', 'r', '.', 's', 'e', 't', 'c', 'r', 'c'] then
    oneOperand asU32 (fun v => [.hdrSetcrc v]) ops
  else if mnemonic = ['i', 'm', 'g', '.', 'b', 'u', 'i', 'l', 'd'] then assembleBuild ops
  else if mnemonic = ['c', 'r', 'c', '.', 'i', 'n', 'i', 't'] then noOperand (expand .crcInit) ops
  else if mnemonic = ['c', 'r', 'c', '.', 'a', 'c', 'c', 'u', 'm', 'u', 'l', 'a', 't', 'e'] then
    assembleAccumulate ops
  else if mnemonic = ['c', 'r', 'c', '.', 'b', 'y', 't', 'e', 's'] then
    (asByteRow ops).map fun bs => expand (.crcBytes bs)
  else none

/-- One line of text: `mnemonic [operand, operand ...]`, a comment or nothing (R71). `none` where it is not in the
form of R71 or an operand is out of range. -/
def assembleLine (line : List Char) : Option (List Instr) :=
  match lex .blank line with
  | none => none
  | some [] => some []
  | some [.word m] => assemble m []
  | some (.word m :: ts) =>
    match operands ts.length ts with
    | some ops => assemble m ops
    | none => none
  | some _ => none

/-! ### Printing a command as text -/

/-- The character of a hexadecimal digit below 16. -/
def hexChar (n : Nat) : Char := if n < 10 then Char.ofNat (0x30 + n) else Char.ofNat (0x41 + (n - 10))

/-- `n` as `k` hexadecimal digits, the most significant first. -/
def hexDigits : Nat → Nat → List Char
  | 0, _ => []
  | k + 1, n => hexDigits k (n / 16) ++ [hexChar (n % 16)]

/-- A numeral of R71 for a byte. -/
def printByte (b : Byte) : List Char := '0' :: 'x' :: hexDigits 2 b.toNat

/-- A numeral of R71 for a U32. -/
def printU32 (v : Word) : List Char := '0' :: 'x' :: hexDigits 8 v.toNat

/-- The elements of a byte list and its closing bracket. -/
def printElements : Bytes → List Char
  | [] => [']']
  | [b] => printByte b ++ [']']
  | b :: bs => printByte b ++ [',', ' '] ++ printElements bs

/-- A BYTES operand as a bracketed byte list (R71). -/
def printBytes (b : Bytes) : List Char := '[' :: printElements b

/-- A command as one line of R71: the form `assembleLine` reads back. -/
def printInstr : Instr → List Char
  | .crcSeed v => ['c', 'r', 'c', '.', 's', 'e', 'e', 'd', ' '] ++ printU32 v
  | .crcByte b => ['c', 'r', 'c', '.', 'b', 'y', 't', 'e', ' '] ++ printByte b
  | .crcAccum d => ['c', 'r', 'c', '.', 'a', 'c', 'c', 'u', 'm', ' '] ++ printBytes d
  | .crcRead => ['c', 'r', 'c', '.', 'r', 'e', 'a', 'd']
  | .hdrEncode m v n =>
    ['h', 'd', 'r', '.', 'e', 'n', 'c', 'o', 'd', 'e', ' '] ++ printBytes m ++ [',', ' '] ++ printBytes v ++
      [',', ' '] ++ printU32 n
  | .hdrSerialize => ['h', 'd', 'r', '.', 's', 'e', 'r', 'i', 'a', 'l', 'i', 'z', 'e']
  | .hdrSetcrc v => ['h', 'd', 'r', '.', 's', 'e', 't', 'c', 'r', 'c', ' '] ++ printU32 v
  | .imgBuild m v p =>
    ['i', 'm', 'g', '.', 'b', 'u', 'i', 'l', 'd', ' '] ++ printBytes m ++ [',', ' '] ++ printBytes v ++
      [',', ' '] ++ printBytes p

end Sys2Proof.Machine
end

