-- ==== Sys2Proof/Machine/CrcNormal.lean ====
section
/-! DEFINITION. The CRC in its normal form: most significant bit first, left-shifting, polynomial 0x04C11DB7 as R7
and R100 name it, with every input byte and the result bit-reversed (REFIN and REFOUT true). No command uses it: it
is the second description that the statement about R100's "input and output reflected" compares the engine with.
PRESUMED, log entry 9: R100 names the parameters and R101 gives the reflected engine only. -/

namespace Sys2Proof.Machine

/-- One step of the left-shifting register: test bit 31, shift left, XOR POLY_NORMAL if it was 1. -/
def bitstepNormal (c : Word) : Word :=
  if c.getLsbD 31 then (c <<< 1) ^^^ Config.polyNormal else c <<< 1

/-- One byte into the left-shifting register: the byte is reflected (REFIN) and enters at bits 31:24. -/
def crcByteNormal (c : Word) (b : Byte) : Word :=
  Nat.iterate bitstepNormal 8 (c ^^^ (b.reverse.setWidth 32 <<< 24))

/-- The whole algorithm in normal form, result reflected (REFOUT) and no output XOR. -/
def accumulateNormal (s : Word) (d : Bytes) : Word := (d.foldl crcByteNormal s.reverse).reverse

end Sys2Proof.Machine
end

