-- ==== Sys2Proof/Machine/Tool.lean ====
section
/-! DEFINITION. The host table of spec/60_exceptions.md rule R211: what the source's tool issues to the block, what
it writes and how it exits. Message texts are out of scope (spec/00_scope.md rule R5). -/

namespace Sys2Proof.Machine

/-- One run of `tool <model_id> <version> <input_file> <output_file>` as the host meets it. -/
structure ToolCall where
  /-- The command-line arguments after the tool's name. -/
  args : List Bytes
  /-- The input file's content, `none` when it cannot be opened, mapped or read in full (R210). -/
  input : Option Bytes
  /-- The output file can be created and written in full (R210). -/
  outputWritable : Bool
deriving DecidableEq, Repr

/-- What stands in the output file afterwards. -/
inductive OutputFile where
  /-- The tool writes no output (R211 rows 1 to 3; row 2 DEDUCED, log entry 11). -/
  | notWritten
  /-- The tool wrote these bytes, all of them. -/
  | holds (b : Bytes)
  /-- Nothing is said of its contents (R211, spec/93_implementation_defined.md U3). -/
  | unspecified
deriving DecidableEq, Repr

/-- How a run ends. -/
structure ToolEnd where
  exitCode : Nat
  file : OutputFile
  /-- The moves issued to the block. -/
  issued : List HostMove
deriving DecidableEq, Repr

/-- The moves of R211's last three rows. -/
def buildMoves (model version payload : Bytes) : List HostMove :=
  [.reset, .issue (.imgBuild model version payload)]

/-- Rows 3 to 5 of R211, by what the block shows after IMG.BUILD; `none` where the table has no row. -/
def finishTool (outputWritable : Bool) (issued : List HostMove) : Result → Option ToolEnd
  | .next s =>
    if statusFault s.status then some ⟨1, .notWritten, issued⟩
    else
      match s.out with
      | some image => some (if outputWritable then ⟨0, .holds image, issued⟩ else ⟨2, .unspecified, issued⟩)
      | none => none
  | .fault _ => none
  | .refused _ => none

/-- The host table (R211). -/
def runTool (c : ToolCall) : Option ToolEnd :=
  match c.args with
  | [model, version, _, _] =>
    match c.input with
    | none => some ⟨1, .notWritten, []⟩
    | some payload =>
      finishTool c.outputWritable (buildMoves model version payload)
        (exec (.imgBuild model version payload) State.reset)
  | _ => some ⟨1, .notWritten, []⟩

end Sys2Proof.Machine
end

