-- ==== Sys2Proof/Safety.lean ====
section
/-! DEFINITION. The terms statements use: when the block runs, when it has halted, what a fault is allowed to change,
which faults the tables of spec/60_exceptions.md give a command, and the invariants of the state. -/

namespace Sys2Proof

open Sys2Proof.Machine

/-! ### Running and halted -/

/-- Reset has been asserted and no fault is recorded: the next command has its effect. -/
abbrev Ready (s : State) : Prop := s.phase = .afterReset ∧ statusFault s.status = false

/-- A fault is recorded: the block has halted (R206). -/
abbrev Halted (s : State) : Prop := s.phase = .afterReset ∧ statusFault s.status = true

/-- A run that may be called a success ends here: R206 says that a halted block is never a normal end. -/
abbrev SuccessfulEnd (s : State) : Prop := Ready s

/-! ### Changes of STATUS -/

/-- `w'` is `w` with the bits listed in `ks` set and every other bit as it was. -/
def StatusRaises (ks : List Nat) (w w' : Word) : Prop :=
  ∀ j, j < 32 → w'.getLsbD j = (decide (j ∈ ks) || w.getLsbD j)

/-- Fault entry as R202 and R205 give it: FAULT, CAUSE, FOPC and FARG record the fault; every other bit of STATUS and
every other part of the state is as before. -/
def FaultTaken (cause : Cause) (fopc : Byte) (farg : BitVec 2) (s t : State) : Prop :=
  t = { s with status := t.status } ∧ statusFault t.status = true ∧
  statusCause t.status = causeCode cause ∧ statusFopc t.status = fopc ∧ statusFarg t.status = farg ∧
  statusReserved t.status = statusReserved s.status ∧ statusValid t.status = statusValid s.status

/-! ### Which fault a command takes (R201, R203) -/

/-- R134's condition on an operand. -/
def ZeroFree (b : Bytes) : Prop := 0#8 ∉ b

/-- The fault a command of a running block takes, by the table of R201 in the order of R203: operand checks in index
order, then state checks. `none`: the command completes. -/
def expectedFault (i : Instr) (s : State) : Option (Cause × BitVec 2) :=
  match i with
  | .crcSeed _ => none
  | .crcByte _ => if s.acc = none then some (.accUnseeded, 0#2) else none
  | .crcAccum _ => if s.acc = none then some (.accUnseeded, 0#2) else none
  | .crcRead => if s.acc = none then some (.accUnseeded, 0#2) else none
  | .hdrEncode model version _ =>
    if 0#8 ∈ model then some (.invalidArgument, 1#2)
    else if 0#8 ∈ version then some (.invalidArgument, 2#2) else none
  | .hdrSerialize => if s.hdr = none then some (.hdrUnwritten, 0#2) else none
  | .hdrSetcrc _ => if s.hdr = none then some (.hdrUnwritten, 0#2) else none
  | .imgBuild model version payload =>
    if 0#8 ∈ model then some (.invalidArgument, 1#2)
    else if 0#8 ∈ version then some (.invalidArgument, 2#2)
    else if 2 ^ 32 ≤ payload.length then some (.lengthOverflow, 3#2) else none

/-- OPC of a command (R63): what FOPC records (R202). -/
def opcOf (i : Instr) : Byte := opcodeCode (opcodeOfInstr i)

/-! ### Invariants -/

/-- A row of R201: which command raises the cause, with which FARG. -/
def FaultRow (cause : BitVec 4) (fopc : Byte) (farg : BitVec 2) : Prop :=
  (cause = 1#4 ∧ (fopc = 0x10#8 ∨ fopc = 0x20#8) ∧ (farg = 1#2 ∨ farg = 2#2)) ∨
  (cause = 2#4 ∧ fopc = 0x20#8 ∧ farg = 3#2) ∨
  (cause = 3#4 ∧ farg = 0#2) ∨
  (cause = 4#4 ∧ (fopc = 0x02#8 ∨ fopc = 0x03#8 ∨ fopc = 0x04#8) ∧ farg = 0#2) ∨
  (cause = 5#4 ∧ (fopc = 0x11#8 ∨ fopc = 0x12#8) ∧ farg = 0#2)

/-- STATUS is legal (R27, R29, R201): reserved bits 0; no record while FAULT = 0; a row of R201 while FAULT = 1; the
validity bits say which registers hold a value. -/
structure StatusLegal (s : State) : Prop where
  reserved : statusReserved s.status = 0#32
  quiet : statusFault s.status = false →
    statusCause s.status = 0#4 ∧ statusFopc s.status = 0#8 ∧ statusFarg s.status = 0#2
  recorded : statusFault s.status = true →
    FaultRow (statusCause s.status) (statusFopc s.status) (statusFarg s.status)
  accv : statusAccv s.status = s.acc.isSome
  hdrv : statusHdrv s.status = s.hdr.isSome
  outv : statusOutv s.status = s.out.isSome
  resv : statusResv s.status = s.result.isSome

/-- The eight unused fields read 0 whenever HDR holds bytes (R24). -/
def UnusedZero (s : State) : Prop :=
  ∀ h, s.hdr = some h → ∀ k, k < 8 → unusedView h.bytes k = some 0#32

/-- The verification of R166: the stored crc is the crc of the header with its crc field zeroed, then the payload; the
filesize is the payload's length; the padding is zero. -/
def ImageVerifies (b : Bytes) : Prop :=
  fromLe32 (slice b 52 56) =
    some (accumulate 0xFFFFFFFF#32 (slice b 0 52 ++ zeros 4 ++ b.drop 2048)) ∧
  (∃ n, fromLe32 (slice b 48 52) = some n ∧ n.toNat = b.length - 2048) ∧
  slice b 56 2048 = zeros 1992

/-- What OUT holds is a header of 56 bytes or an image that verifies (R25, R166). -/
def OutSound (s : State) : Prop :=
  ∀ b, s.out = some b → b.length = 56 ∨ (2048 ≤ b.length ∧ ImageVerifies b)

/-- An invariant that is claimed once reset has been asserted: before it nothing is known of a register (R241). -/
def AfterReset (inv : State → Prop) (s : State) : Prop := s.phase = .afterReset → inv s

/-! ### Sequences the spec names -/

/-- The primitive sequence of R167 run from `s` ends in `t`. Where the sequence writes OUT or RESULT as an operand, the
value is the one the host read there. -/
def PrimitiveBuild (m v p : Bytes) (s t : State) : Prop :=
  ∃ s1 s2 s3 s4 s5 s6 s7 : State, ∃ h0 : Bytes, ∃ final : Word,
    exec (.hdrEncode m v (lengthWord p)) s = .next s1 ∧
    exec .hdrSerialize s1 = .next s2 ∧ s2.out = some h0 ∧
    execAll (expand .crcInit) s2 = .next s3 ∧
    exec (.crcAccum h0) s3 = .next s4 ∧
    exec (.crcAccum p) s4 = .next s5 ∧
    exec .crcRead s5 = .next s6 ∧ s6.result = some final ∧
    exec (.hdrSetcrc final) s6 = .next s7 ∧
    exec .hdrSerialize s7 = .next t

end Sys2Proof
end

