-- ==== Sys2Proof/Certificates/Slice0/Obligations.lean ====
section
/-! DEFINITION. The statements about the model, from the numbered rules of spec/. A frame is said by a record update:
`t = { s with acc := some v, status := t.status }` says that every other field of the state, OUT, the stream and the
host's moves among them, is as before; `StatusRaises` and `FaultTaken` say what may change in STATUS. -/

open Sys2Proof Sys2Proof.Machine

/-! ### The engine's functions -/

/-- R101, bit by bit: bit k of the result is bit k+1 of `c` (0 for k = 31: the shift is logical), XORed with bit k of
0xEDB88320 when bit 0 of `c` is 1. -/
def Obligations.BitstepShiftsAndXorsPolynomial : Prop :=
  ∀ (c : Word) (k : Nat), k < 32 →
    (bitstep c).getLsbD k = xor (c.getLsbD (k + 1)) (c.getLsbD 0 && (0xEDB88320#32).getLsbD k)

/-- R103: the listed table is `T[n] = crc_byte(0, n)`, and the table form computes the byte step. -/
def Obligations.TableFormEqualsBitForm : Prop :=
  crcTable.length = 256 ∧
  (∀ n, n < 256 → tableEntry n = crcByte 0#32 (BitVec.ofNat 8 n)) ∧
  (∀ (c : Word) (b : Byte), crcByte c b = tableEntry ((c ^^^ b.setWidth 32) &&& 0xFF#32).toNat ^^^ (c >>> 8))

/-- R100's parameters: the right-shifting engine is the left-shifting one with polynomial 0x04C11DB7, each input byte
and the result reflected. The left-shifting form is the model's own second description (log entry 9). -/
def Obligations.EngineEqualsNormalForm : Prop :=
  ∀ (s : Word) (d : Bytes), accumulate s d = accumulateNormal s d

/-- R106 (a). -/
def Obligations.CrcByteIsLinear : Prop :=
  (∀ x y : Word, bitstep (x ^^^ y) = bitstep x ^^^ bitstep y) ∧
  (∀ (c1 c2 : Word) (b1 b2 : Byte), crcByte c1 b1 ^^^ crcByte c2 b2 = crcByte (c1 ^^^ c2) (b1 ^^^ b2))

/-- R106 (b) and (c): zeros fixed at 0; the accumulator's own little-endian bytes clear it. -/
def Obligations.ZeroFixedPointAndResidue : Prop :=
  (∀ n, accumulate 0#32 (zeros n) = 0#32) ∧ (∀ c : Word, accumulate c (le32 c) = 0#32)

/-- R104 and R105: byte by byte from offset 0, and regions chained as if concatenated. -/
def Obligations.AccumulateFoldsAndChains : Prop :=
  (∀ s : Word, accumulate s [] = s) ∧
  (∀ (s : Word) (b : Byte) (d : Bytes), accumulate s (b :: d) = accumulate (crcByte s b) d) ∧
  (∀ (s : Word) (a b : Bytes), accumulate (accumulate s a) b = accumulate s (a ++ b))

/-! ### The CRC commands -/

/-- R110: effect and frame, stream form, example. -/
def Obligations.CrcSeedLoadsAccumulator : Prop :=
  (∀ (seed : Word) (s : State), Ready s → ∃ t, exec (.crcSeed seed) s = .next t ∧
    t = { s with acc := some seed, status := t.status } ∧ StatusRaises [24] s.status t.status) ∧
  (∀ seed : Word, encode (.crcSeed seed) = [0x01#8, 0#8, 0#8, 0#8] ++ le32 seed) ∧
  (∃ t, exec (.crcSeed 0xFFFFFFFF#32) State.reset = .next t ∧
    t.acc = some 0xFFFFFFFF#32 ∧ t.status = 0x01000000#32)

/-- R111: effect and frame, the fault, stream form, corner cases, examples. -/
def Obligations.CrcByteFoldsOneByte : Prop :=
  (∀ (b : Byte) (s : State) (c : Word), Ready s → s.acc = some c →
    exec (.crcByte b) s = .next { s with acc := some (crcByte c b) }) ∧
  (∀ (b : Byte) (s : State), Ready s → s.acc = none → ∃ t, exec (.crcByte b) s = .next t ∧
    FaultTaken .accUnseeded 0x02#8 0#2 s t) ∧
  (∀ b : Byte, encode (.crcByte b) = [0x02#8, b, 0#8, 0#8]) ∧
  (∀ c : Word, crcByte c 0#8 = c → c = 0#32) ∧ crcByte 0#32 0#8 = 0#32 ∧
  (∀ c : Word, crcByte c (c.setWidth 8) = c >>> 8) ∧
  crcByte 0xFFFFFFFF#32 0x00#8 = 0x2DFD1072#32 ∧ crcByte 0xFFFFFFFF#32 0xFF#8 = 0x00FFFFFF#32

/-- R112: effect and frame, the fault (for empty data too), stream form, equivalence with bytes one by one and with
the data in two parts, example. -/
def Obligations.CrcAccumFoldsSequence : Prop :=
  (∀ (d : Bytes) (s : State) (c : Word), Ready s → s.acc = some c →
    exec (.crcAccum d) s = .next { s with acc := some (accumulate c d) }) ∧
  (∀ (d : Bytes) (s : State), Ready s → s.acc = none → ∃ t, exec (.crcAccum d) s = .next t ∧
    FaultTaken .accUnseeded 0x03#8 0#2 s t) ∧
  (∀ d : Bytes, encode (.crcAccum d) = [0x03#8, 0#8, 0#8, 0#8] ++ le32 (BitVec.ofNat 32 d.length) ++ d) ∧
  (∀ (s : State) (c : Word), Ready s → s.acc = some c → exec (.crcAccum []) s = .next s) ∧
  (∀ (d : Bytes) (s : State) (c : Word), Ready s → s.acc = some c →
    execAll (d.map .crcByte) s = exec (.crcAccum d) s) ∧
  (∀ (a b : Bytes) (s : State) (c : Word), Ready s → s.acc = some c →
    execAll [.crcAccum a, .crcAccum b] s = exec (.crcAccum (a ++ b)) s) ∧
  accumulate 0xFFFFFFFF#32 [0x31#8, 0x32#8, 0x33#8, 0x34#8, 0x35#8, 0x36#8, 0x37#8, 0x38#8, 0x39#8] = 0x340BC6D9#32

/-- R113 and R22: RESULT is the raw accumulator; frame, fault, stream form, reading twice, example. -/
def Obligations.CrcReadCopiesRawAccumulator : Prop :=
  (∀ (s : State) (c : Word), Ready s → s.acc = some c → ∃ t, exec .crcRead s = .next t ∧
    t = { s with result := some c, status := t.status } ∧ StatusRaises [27] s.status t.status) ∧
  (∀ s : State, Ready s → s.acc = none → ∃ t, exec .crcRead s = .next t ∧
    FaultTaken .accUnseeded 0x04#8 0#2 s t) ∧
  encode .crcRead = [0x04#8, 0#8, 0#8, 0#8] ∧
  (∀ (s : State) (c : Word), Ready s → s.acc = some c →
    execAll [.crcRead, .crcRead] s = exec .crcRead s) ∧
  (∃ t, execAll [.crcSeed 0xFFFFFFFF#32, .crcAccum [0x01#8, 0x02#8, 0x03#8], .crcRead] State.reset = .next t ∧
    t.result = some 0xAA437FE2#32)

/-! ### The header encoder -/

/-- R130 and R131: the three cases of a string field, and where the model and version fields stand. -/
def Obligations.Field8TruncatesOrFills : Prop :=
  (∀ s : Bytes, (field8 s).length = 8 ∧
    (s.length < 8 → field8 s = s ++ zeros (8 - s.length)) ∧
    (s.length = 8 → field8 s = s) ∧
    (8 < s.length → field8 s = s.take 8)) ∧
  field8 [] = zeros 8 ∧
  (∀ (m v : Bytes) (n c : Word), slice (headerBytes m v n c) 0 8 = field8 m ∧
    slice (headerBytes m v n c) 8 16 = field8 v)

/-- R139, R132: where each field stands in the header and what its view reads. -/
def Obligations.HeaderBytesLayout : Prop :=
  ∀ (m v : Bytes) (n c : Word),
    (headerBytes m v n c).length = 56 ∧
    headerBytes m v n c = field8 m ++ field8 v ++ zeros 32 ++ le32 n ++ le32 c ∧
    modelView (headerBytes m v n c) = field8 m ∧
    versionView (headerBytes m v n c) = field8 v ∧
    slice (headerBytes m v n c) 16 48 = zeros 32 ∧
    (∀ k, k < 8 → unusedView (headerBytes m v n c) k = some 0#32) ∧
    filesizeView (headerBytes m v n c) = some n ∧
    crcView (headerBytes m v n c) = some c

/-- R136: effect and frame, both faults and their order, stream form, example. -/
def Obligations.HdrEncodeBuildsHeader : Prop :=
  (∀ (m v : Bytes) (n : Word) (s : State), Ready s → ZeroFree m → ZeroFree v →
    ∃ t h, exec (.hdrEncode m v n) s = .next t ∧ t = { s with hdr := some h, status := t.status } ∧
      h.bytes = headerBytes m v n 0#32 ∧ StatusRaises [25] s.status t.status) ∧
  (∀ (m v : Bytes) (n : Word) (s : State), Ready s → ¬ ZeroFree m →
    ∃ t, exec (.hdrEncode m v n) s = .next t ∧ FaultTaken .invalidArgument 0x10#8 1#2 s t) ∧
  (∀ (m v : Bytes) (n : Word) (s : State), Ready s → ZeroFree m → ¬ ZeroFree v →
    ∃ t, exec (.hdrEncode m v n) s = .next t ∧ FaultTaken .invalidArgument 0x10#8 2#2 s t) ∧
  (∀ (m v : Bytes) (n : Word), encode (.hdrEncode m v n) =
    [0x10#8, 0#8, 0#8, 0#8] ++ le32 (BitVec.ofNat 32 m.length) ++ m ++
      le32 (BitVec.ofNat 32 v.length) ++ v ++ le32 n) ∧
  headerBytes [0x41#8, 0x41#8] [0x31#8] 3#32 0#32 =
    [0x41#8, 0x41#8] ++ zeros 6 ++ [0x31#8] ++ zeros 7 ++ zeros 32 ++ [3#8, 0#8, 0#8, 0#8] ++ zeros 4

/-- R137: effect and frame, the fault, stream form. -/
def Obligations.HdrSerializeCopiesHeader : Prop :=
  (∀ (s : State) (h : Header), Ready s → s.hdr = some h → ∃ t, exec .hdrSerialize s = .next t ∧
    t = { s with out := some h.bytes, status := t.status } ∧ h.bytes.length = 56 ∧
    StatusRaises [26] s.status t.status) ∧
  (∀ s : State, Ready s → s.hdr = none → ∃ t, exec .hdrSerialize s = .next t ∧
    FaultTaken .hdrUnwritten 0x11#8 0#2 s t) ∧
  encode .hdrSerialize = [0x11#8, 0#8, 0#8, 0#8]

/-- R138 and R255: bytes 0..51 kept, the crc field stored raw, OUT and STATUS not touched; the fault, stream form,
example. -/
def Obligations.HdrSetcrcWritesCrcField : Prop :=
  (∀ (value : Word) (s : State) (h : Header), Ready s → s.hdr = some h →
    ∃ h', exec (.hdrSetcrc value) s = .next { s with hdr := some h' } ∧
      h'.bytes = h.bytes.take 52 ++ le32 value) ∧
  (∀ (value : Word) (s : State), Ready s → s.hdr = none → ∃ t, exec (.hdrSetcrc value) s = .next t ∧
    FaultTaken .hdrUnwritten 0x12#8 0#2 s t) ∧
  (∀ value : Word, encode (.hdrSetcrc value) = [0x12#8, 0#8, 0#8, 0#8] ++ le32 value) ∧
  (∀ (value : Word) (m v : Bytes) (n : Word),
    (setCrcField (makeHeader m v n 0#32) value).bytes = headerBytes m v n value) ∧
  le32 0x5273E360#32 = [0x60#8, 0xE3#8, 0x73#8, 0x52#8]

/-! ### The image builder -/

/-- R161, R160: the five steps, their writes and nothing else; the three faults in their order; stream form; the
example. -/
def Obligations.ImgBuildWritesWholeImage : Prop :=
  (∀ (m v p : Bytes) (s : State), Ready s → ZeroFree m → ZeroFree v → p.length < 2 ^ 32 →
    ∃ t h final, exec (.imgBuild m v p) s = .next t ∧
      final = accumulate (accumulate 0xFFFFFFFF#32 (headerBytes m v (BitVec.ofNat 32 p.length) 0#32)) p ∧
      final = accumulate 0xFFFFFFFF#32 (headerBytes m v (BitVec.ofNat 32 p.length) 0#32 ++ p) ∧
      h.bytes = headerBytes m v (BitVec.ofNat 32 p.length) final ∧
      t = { s with acc := some final, hdr := some h, out := some (h.bytes ++ zeros 1992 ++ p), status := t.status } ∧
      StatusRaises [24, 25, 26] s.status t.status) ∧
  (∀ (m v p : Bytes) (s : State), Ready s → ¬ ZeroFree m → ∃ t, exec (.imgBuild m v p) s = .next t ∧
    FaultTaken .invalidArgument 0x20#8 1#2 s t) ∧
  (∀ (m v p : Bytes) (s : State), Ready s → ZeroFree m → ¬ ZeroFree v →
    ∃ t, exec (.imgBuild m v p) s = .next t ∧ FaultTaken .invalidArgument 0x20#8 2#2 s t) ∧
  (∀ (m v p : Bytes) (s : State), Ready s → ZeroFree m → ZeroFree v → 2 ^ 32 ≤ p.length →
    ∃ t, exec (.imgBuild m v p) s = .next t ∧ FaultTaken .lengthOverflow 0x20#8 3#2 s t) ∧
  (∀ m v p : Bytes, encode (.imgBuild m v p) =
    [0x20#8, 0#8, 0#8, 0#8] ++ le32 (BitVec.ofNat 32 m.length) ++ m ++
      le32 (BitVec.ofNat 32 v.length) ++ v ++ le32 (BitVec.ofNat 32 p.length) ++ p) ∧
  accumulate 0xFFFFFFFF#32 (headerBytes [0x41#8, 0x41#8] [0x31#8] 3#32 0#32) = 0xF3CB5701#32 ∧
  imageCrc [0x41#8, 0x41#8] [0x31#8] [1#8, 2#8, 3#8] = 0x5273E360#32

/-- R162, R163, R165, R169: the regions of an image, for every run of IMG.BUILD that completes. -/
def Obligations.ImageRegionsAreAsMapped : Prop :=
  ∀ (m v p : Bytes) (s : State), Ready s → ZeroFree m → ZeroFree v → p.length < 2 ^ 32 →
    ∃ t b, exec (.imgBuild m v p) s = .next t ∧ t.out = some b ∧
      b.length = 2048 + p.length ∧
      slice b 0 8 = field8 m ∧ slice b 8 16 = field8 v ∧ slice b 16 48 = zeros 32 ∧
      (∃ n, fromLe32 (slice b 48 52) = some n ∧ n.toNat = p.length) ∧
      slice b 56 2048 = zeros 1992 ∧
      slice b 2048 (2048 + p.length) = p

/-- R166: the corrected verification holds of every image IMG.BUILD writes. -/
def Obligations.BuiltImageVerifies : Prop :=
  ∀ (m v p : Bytes) (s : State), Ready s → ZeroFree m → ZeroFree v → p.length < 2 ^ 32 →
    ∃ t b, exec (.imgBuild m v p) s = .next t ∧ t.out = some b ∧
      fromLe32 (slice b 52 56) =
        some (accumulate 0xFFFFFFFF#32 (slice b 0 52 ++ zeros 4 ++ b.drop 2048)) ∧
      (∃ n, fromLe32 (slice b 48 52) = some n ∧ n.toNat = b.length - 2048) ∧
      slice b 56 2048 = zeros 1992

/-- 90_conflicts.md C3: for the worked example the source's literal slice, which leaves out filesize and takes in the
padding, gives another value than the one stored. -/
def Obligations.LiteralSliceMissesTheCrc : Prop :=
  ∃ t b, exec (.imgBuild [0x41#8, 0x41#8] [0x31#8] [1#8, 2#8, 3#8]) State.reset = .next t ∧ t.out = some b ∧
    fromLe32 (slice b 52 56) = some 0x5273E360#32 ∧
    accumulate 0xFFFFFFFF#32 (slice b 0 48 ++ zeros 4 ++ b.drop 56) = 0x5D9082C0#32

/-- R167: IMG.BUILD and the primitive sequence, from the same state, leave the same HDR and ACC, and the image is the
sequence's OUT, the padding and the payload. -/
def Obligations.BuildEqualsPrimitiveSequence : Prop :=
  ∀ (m v p : Bytes) (s : State), Ready s → ZeroFree m → ZeroFree v → p.length < 2 ^ 32 →
    ∃ t u h, exec (.imgBuild m v p) s = .next t ∧ PrimitiveBuild m v p s u ∧
      t.hdr = u.hdr ∧ t.acc = u.acc ∧ u.out = some h ∧ t.out = some (h ++ zeros 1992 ++ p) ∧
      t.result = s.result ∧ statusResv t.status = statusResv s.status ∧
      u.result = u.acc ∧ u.acc.isSome = true ∧ statusResv u.status = true

/-- R168: the outputs depend on the operands only. -/
def Obligations.BuildDependsOnOperandsOnly : Prop :=
  ∀ (m v p : Bytes) (s1 s2 : State), Ready s1 → Ready s2 → ZeroFree m → ZeroFree v → p.length < 2 ^ 32 →
    ∃ t1 t2, exec (.imgBuild m v p) s1 = .next t1 ∧ exec (.imgBuild m v p) s2 = .next t2 ∧
      t1.out = t2.out ∧ t1.hdr = t2.hdr ∧ t1.acc = t2.acc ∧ t1.out.isSome = true

/-- R164, at a step: a payload too long for filesize comes in abstract form only (R65), and IMG.BUILD writes nothing
but the fault. -/
def Obligations.OverlongPayloadFaults : Prop :=
  (∀ (m v p : Bytes) (s : State) (moves : List HostMove), Ready s → ZeroFree m → ZeroFree v → 2 ^ 32 ≤ p.length →
    s.stream = [] → s.host = .issue (.imgBuild m v p) :: moves →
    ∃ t, step s = .next t ∧ FaultTaken .lengthOverflow 0x20#8 3#2 { s with host := moves } t) ∧
  (∀ m v p : Bytes, 2 ^ 32 ≤ p.length → wellFormed (.imgBuild m v p) = false)

/-! ### Faults, halt, reset -/

/-- R201, R203: an ILLEGAL word faults in decoding, whatever the state holds; a running block's command takes the fault
the tables give it, the first in order, and completes with FAULT = 0 exactly when they give none. -/
def Obligations.FaultsFollowTableAndPriority : Prop :=
  (∀ (s : State) (w : Word) (rest : Bytes), Ready s → decode s.stream = .illegal w rest →
    ∃ t, step s = .next t ∧
      FaultTaken .illegalCommand (w.extractLsb' 0 8) 0#2 { s with stream := rest } t) ∧
  (∀ (i : Instr) (s : State), Ready s → ∃ t, exec i s = .next t ∧
    (expectedFault i s = none → statusFault t.status = false) ∧
    (∀ c a, expectedFault i s = some (c, a) → FaultTaken c (opcOf i) a s t)) ∧
  (∀ (p : Bytes) (s : State), Ready s → ∃ t, exec (.imgBuild [0#8] [0#8] p) s = .next t ∧
    FaultTaken .invalidArgument 0x20#8 1#2 s t)

/-- R202, R205: fault entry, and that no command that ends in a fault has written anything else. -/
def Obligations.FaultEntryWritesOnlyStatus : Prop :=
  (∀ (c : Cause) (f : Byte) (a : BitVec 2) (s : State), FaultTaken c f a s (s.enterFault c f a)) ∧
  (∀ (i : Instr) (s t : State), Ready s → exec i s = .next t → statusFault t.status = true →
    ∃ c a, c ≠ .noFault ∧ FaultTaken c (opcOf i) a s t)

/-- R206: while halted, every command and every ILLEGAL word is consumed with no effect, and no such state is a
successful end. -/
def Obligations.HaltedBlockConsumesWithoutEffect : Prop :=
  ∀ s : State, Halted s →
    (∀ i, exec i s = .next s) ∧
    (∀ i rest, decode s.stream = .command i rest → step s = .next { s with stream := rest }) ∧
    (∀ w rest, decode s.stream = .illegal w rest → step s = .next { s with stream := rest }) ∧
    ¬ SuccessfulEnd s

/-- R207: a step from a halted state keeps STATUS whole, or it is the reset. -/
def Obligations.OnlyResetClearsFault : Prop :=
  ∀ s t : State, Halted s → step s = .next t →
    (t.status = s.status ∧ t.phase = .afterReset) ∨
    (∃ moves, s.host = .reset :: moves ∧ t = { State.reset with host := moves })

/-- R31, R240: between two commands reset sets every register to its reset value, from any state. -/
def Obligations.ResetSetsEveryRegister : Prop :=
  ∀ (s : State) (moves : List HostMove), s.stream = [] → s.host = .reset :: moves →
    ∃ t, step s = .next t ∧ t.acc = none ∧ t.hdr = none ∧ t.out = none ∧ t.result = none ∧ t.status = 0#32

/-- R241, U4: before the first reset a command or an ILLEGAL word is refused and nothing can be observed; the reset
makes the block ready and leaves the host's later moves (log entries 5 and 7); after reset the block waits for its
first command. The wait is the model's stuck outcome (log entry 3). -/
def Obligations.BeforeResetIsRefused : Prop :=
  (∀ s : State, s.phase = .beforeReset →
    (∀ i, exec i s = .refused .beforeReset) ∧ (∀ w, illegalCommand w s = .refused .beforeReset) ∧
    observe s = none) ∧
  (∀ (s : State) (moves : List HostMove), s.stream = [] → s.host = .reset :: moves →
    ∃ t, step s = .next t ∧ Ready t ∧ t.stream = [] ∧ t.host = moves) ∧
  step State.reset = .fault .waitingForCommand

/-- R10: after reset every command answers, in every state, a new state or a fault. That a fault of the spec is a NEXT
state here is the model's reading (DEDUCED, log entry 4). -/
def Obligations.EveryCommandAnswersAfterReset : Prop :=
  ∀ (i : Instr) (s : State), s.phase = .afterReset → ∃ t, exec i s = .next t ∧ t.phase = .afterReset

/-! ### Who writes and who reads -/

/-- R21, R24, R25, R26: the writers of each register. -/
def Obligations.RegistersHaveOnlyTheirWriters : Prop :=
  ∀ (i : Instr) (s t : State), exec i s = .next t →
    (t.acc ≠ s.acc → opcodeOfInstr i ∈ [Opcode.crcSeed, .crcByte, .crcAccum, .imgBuild]) ∧
    (t.hdr ≠ s.hdr → opcodeOfInstr i ∈ [Opcode.hdrEncode, .hdrSetcrc, .imgBuild]) ∧
    (t.out ≠ s.out → opcodeOfInstr i ∈ [Opcode.hdrSerialize, .imgBuild]) ∧
    (t.result ≠ s.result → opcodeOfInstr i = Opcode.crcRead)

/-- R25, R26: no command reads OUT or RESULT. Two runs that differ only there agree on everything else, and on OUT and
RESULT wherever the command writes them. -/
def Obligations.OutAndResultAreNeverRead : Prop :=
  ∀ (i : Instr) (s t : State) (o : Option Bytes) (r : Option Word), exec i s = .next t →
    ∃ t', exec i { s with out := o, result := r } = .next t' ∧
      t'.acc = t.acc ∧ t'.hdr = t.hdr ∧ t'.status = t.status ∧ t'.phase = t.phase ∧
      t'.stream = t.stream ∧ t'.host = t.host ∧
      (t'.out = t.out ∨ (t.out = s.out ∧ t'.out = o)) ∧
      (t'.result = t.result ∨ (t.result = s.result ∧ t'.result = r))

/-- R30, R54: a command neither reads nor writes the command stream or the host's moves. -/
def Obligations.CommandsIgnoreTheStream : Prop :=
  ∀ (i : Instr) (s t : State) (bs : Bytes) (moves : List HostMove), exec i s = .next t →
    t.stream = s.stream ∧ t.host = s.host ∧
    exec i { s with stream := bs, host := moves } = .next { t with stream := bs, host := moves }

/-! ### Invariants -/

/-- R27, R29, R201: STATUS stays legal over every step. -/
def Obligations.StatusStaysLegal : Prop :=
  ∀ s t : State, AfterReset StatusLegal s → step s = .next t → AfterReset StatusLegal t

/-- R27: a validity bit, once set, stays set over every step but a reset. -/
def Obligations.ValidityBitsStaySet : Prop :=
  ∀ s t : State, step s = .next t →
    (∃ moves, s.host = .reset :: moves ∧ t = { State.reset with host := moves }) ∨
    (∀ k, 24 ≤ k → k ≤ 27 → s.status.getLsbD k = true → t.status.getLsbD k = true)

/-- R24: the unused fields of HDR stay 0 over every step. -/
def Obligations.UnusedFieldsStayZero : Prop :=
  ∀ s t : State, AfterReset UnusedZero s → step s = .next t → AfterReset UnusedZero t

/-- R25, R166: over every step, what OUT holds stays a whole header or an image that verifies. -/
def Obligations.OutStaysSound : Prop :=
  ∀ s t : State, AfterReset OutSound s → step s = .next t → AfterReset OutSound t

/-- The three invariants hold right after reset. -/
def Obligations.ResetMeetsInvariants : Prop :=
  State.reset.phase = .afterReset ∧ StatusLegal State.reset ∧ UnusedZero State.reset ∧ OutSound State.reset

/-! ### Encoding and the stream -/

/-- R67: which words are ILLEGAL; a legal word names its OPC's operation; an ILLEGAL word faults as soon as it is
delivered, taking no operand; while a command is not complete and the host does nothing, no step is taken. -/
def Obligations.IllegalWordsDecodeAndFault : Prop :=
  (∀ w : Word, decodeWord w = none ↔
    (w.extractLsb' 16 16 ≠ 0#16 ∨
      w.extractLsb' 0 8 ∉ [0x01#8, 0x02#8, 0x03#8, 0x04#8, 0x10#8, 0x11#8, 0x12#8, 0x20#8] ∨
      (w.extractLsb' 0 8 ≠ 0x02#8 ∧ w.extractLsb' 8 8 ≠ 0#8))) ∧
  (∀ (w : Word) (op : Opcode), decodeWord w = some op → opcodeCode op = w.extractLsb' 0 8) ∧
  decodeWord 0#32 = none ∧
  (∀ (s : State) (w : Word) (rest : Bytes), Ready s → s.stream = le32 w ++ rest → decodeWord w = none →
    ∃ t, step s = .next t ∧
      FaultTaken .illegalCommand (w.extractLsb' 0 8) 0#2 { s with stream := rest } t) ∧
  (∀ (s t : State), decode s.stream = .incomplete → s.host = [] → step s ≠ .next t)

/-- R65: the stream form of a command, whatever follows it, decodes to the command. -/
def Obligations.StreamRoundTrip : Prop :=
  ∀ (i : Instr) (rest : Bytes), wellFormed i = true → decode (encode i ++ rest) = .command i rest

/-- R65, R67: a stream that decodes to a command begins with exactly that command's stream form. -/
def Obligations.DecodedStreamIsTheEncoding : Prop :=
  ∀ (bs : Bytes) (i : Instr) (rest : Bytes), decode bs = .command i rest →
    wellFormed i = true ∧ bs = encode i ++ rest

/-- R67: a command of which any bytes are missing is not a command yet. -/
def Obligations.ProperPartIsIncomplete : Prop :=
  ∀ (i : Instr) (k : Nat), wellFormed i = true → k < (encode i).length →
    decode ((encode i).take k) = .incomplete

/-- Words written out from R61, R63 and R65, and the commands they stand for. -/
def Obligations.WrittenOutWordsDecode : Prop :=
  decode [0x01#8, 0#8, 0#8, 0#8, 0x78#8, 0x56#8, 0x34#8, 0x12#8] = .command (.crcSeed 0x12345678#32) [] ∧
  decode [0x02#8, 0x31#8, 0#8, 0#8] = .command (.crcByte 0x31#8) [] ∧
  decode [0x10#8, 0#8, 0#8, 0#8, 2#8, 0#8, 0#8, 0#8, 0x41#8, 0x42#8, 1#8, 0#8, 0#8, 0#8, 0x31#8, 3#8, 0#8, 0#8, 0#8] =
    .command (.hdrEncode [0x41#8, 0x42#8] [0x31#8] 3#32) [] ∧
  decode [0x20#8, 0#8, 0#8, 0#8, 1#8, 0#8, 0#8, 0#8, 0x41#8, 0#8, 0#8, 0#8, 0#8, 2#8, 0#8, 0#8, 0#8, 9#8, 8#8, 7#8] =
    .command (.imgBuild [0x41#8] [] [9#8, 8#8]) [7#8]

/-- A step runs the decoded command, in the state that has consumed its bytes; a command in abstract form likewise. The
fields `stream` and `host`, and that a command complete in the stream runs before the host's next move, be it a reset,
are the model's choice (DESIGN CHOICE, log entries 1 and 2). -/
def Obligations.StepRunsDecodedCommand : Prop :=
  (∀ (s : State) (i : Instr) (rest : Bytes), decode s.stream = .command i rest →
    step s = exec i { s with stream := rest }) ∧
  (∀ (s : State) (i : Instr) (moves : List HostMove), s.stream = [] → s.host = .issue i :: moves →
    step s = exec i { s with host := moves })

/-- R65's two forms of a command: delivered in one piece or issued in abstract form, a command that has a stream form
does the same. That a delivery is a step of its own and an abstract command a move of the host is the model's choice
(DESIGN CHOICE, log entry 1). -/
def Obligations.StreamAndAbstractFormsAgree : Prop :=
  ∀ (s : State) (i : Instr) (moves : List HostMove), wellFormed i = true → s.stream = [] →
    s.host = .deliver (encode i) :: moves →
    ∃ s1, step s = .next s1 ∧ step s1 = step { s with host := .issue i :: moves }

/-- A delivery adds its bytes to the stream and touches no register (R220 gives the host the delivery, R67 the wait).
That it is one step which appends to the field `stream` is the model's choice (DESIGN CHOICE, log entries 1 and 2). -/
def Obligations.DeliveryChangesNoRegister : Prop :=
  ∀ (s : State) (bs : Bytes) (moves : List HostMove), decode s.stream = .incomplete →
    s.host = .deliver bs :: moves →
    step s = .next { s with stream := s.stream ++ bs, host := moves }

/-- Log entry 6 (the model's choice): a reset, or a command in abstract form, inside a command the host has begun to
deliver is refused. -/
def Obligations.BrokenOffCommandIsRefused : Prop :=
  ∀ (s : State) (moves : List HostMove) (i : Instr), s.stream ≠ [] → decode s.stream = .incomplete →
    (s.host = .reset :: moves ∨ s.host = .issue i :: moves) → step s = .refused .commandBrokenOff

/-- R40: byte k of the stored word is its k-th byte from the least significant one, and reading undoes storing. -/
def Obligations.WordsAreLittleEndian : Prop :=
  (∀ (v : Word) (k : Nat), k < 4 → ((le32 v)[k]?).map BitVec.toNat = some (v.toNat / 256 ^ k % 256)) ∧
  (∀ (v : Word) (b : Bytes), fromLe32 b = some v ↔ b = le32 v)

/-! ### Pseudo-instructions, text, host -/

/-- R72: the expansions and what they do; `crc.bytes` with one byte or more, as R72 writes it. -/
def Obligations.PseudoInstructionsExpand : Prop :=
  (expand .crcInit = [.crcSeed 0xFFFFFFFF#32] ∧
    (∀ (x : Word) (d : Bytes), expand (.crcAccumulate x d) = [.crcSeed x, .crcAccum d, .crcRead]) ∧
    (∀ (b : Byte) (bs : Bytes), expand (.crcBytes (b :: bs)) = .crcByte b :: bs.map .crcByte)) ∧
  (∀ (x : Word) (d : Bytes) (s : State), Ready s →
    ∃ t, execAll (expand (.crcAccumulate x d)) s = .next t ∧ t.result = some (accumulate x d) ∧
      t.acc = some (accumulate x d) ∧ t.hdr = s.hdr ∧ t.out = s.out) ∧
  (∀ (b : Byte) (bs : Bytes) (s : State) (c : Word), Ready s → s.acc = some c →
    execAll (expand (.crcBytes (b :: bs))) s = exec (.crcAccum (b :: bs)) s)

/-- `crc.bytes` with no byte is the model's choice (DESIGN CHOICE, log entry 15): the bare mnemonic is accepted and is no
command at all. It so does what `crc.accum []` does where ACC is seeded, and takes no fault where that command does. -/
def Obligations.EmptyByteRowIsNoCommand : Prop :=
  assembleLine ['c', 'r', 'c', '.', 'b', 'y', 't', 'e', 's'] = some (expand (.crcBytes [])) ∧
  (∀ s : State, execAll (expand (.crcBytes [])) s = .next s) ∧
  (∀ (s : State) (c : Word), Ready s → s.acc = some c →
    execAll (expand (.crcBytes [])) s = exec (.crcAccum []) s) ∧
  (∀ s : State, Ready s → s.acc = none → ∃ t, exec (.crcAccum []) s = .next t ∧
    FaultTaken .accUnseeded 0x03#8 0#2 s t)

/-- The text of every command, as the model prints it in R71's form, is read back as the command. The blanks, the
upper-case hexadecimal digits and the leading zeros of the printed text are the model's choice where R71 leaves them
open (DESIGN CHOICE, log entry 10). -/
def Obligations.PrintedCommandAssembles : Prop :=
  ∀ i : Instr, assembleLine (printInstr i) = some [i]

/-- R29, R32: the host reads the three outputs, and no value exactly where the validity bit is 0. -/
def Obligations.ObservationFollowsValidityBits : Prop :=
  ∀ s : State, s.phase = .afterReset → StatusLegal s →
    ∃ o, observe s = some o ∧ o.out = s.out ∧ o.result = s.result ∧ o.status = s.status ∧
      (o.out = none ↔ statusOutv o.status = false) ∧ (o.result = none ↔ statusResv o.status = false) ∧
      (observedCause s).isSome = true

/-- R211: the rows of the host table, less the message texts; a block fault has CAUSE 1 or 2, and the file of a
success holds OUT as IMG.BUILD after reset leaves it. That an unreadable input leaves no output is the model's reading
(DEDUCED, log entry 11). -/
def Obligations.HostTableOutcomes : Prop :=
  (∀ c : ToolCall, c.args.length ≠ 4 → runTool c = some ⟨1, .notWritten, []⟩) ∧
  (∀ c : ToolCall, c.args.length = 4 → c.input = none → runTool c = some ⟨1, .notWritten, []⟩) ∧
  (∀ (c : ToolCall) (m v f g p : Bytes), c.args = [m, v, f, g] → c.input = some p →
    ((¬ ZeroFree m ∨ ¬ ZeroFree v ∨ 2 ^ 32 ≤ p.length) →
      ∃ t, exec (.imgBuild m v p) State.reset = .next t ∧ statusFault t.status = true ∧
        (statusCause t.status = 1#4 ∨ statusCause t.status = 2#4) ∧
        runTool c = some ⟨1, .notWritten, [.reset, .issue (.imgBuild m v p)]⟩) ∧
    (ZeroFree m → ZeroFree v → p.length < 2 ^ 32 →
      ∃ t b, exec (.imgBuild m v p) State.reset = .next t ∧ statusFault t.status = false ∧ t.out = some b ∧
        b = imageBytes m v p ∧ b.length = 2048 + p.length ∧ ImageVerifies b ∧
        (c.outputWritable = false →
          runTool c = some ⟨2, .unspecified, [.reset, .issue (.imgBuild m v p)]⟩) ∧
        (c.outputWritable = true →
          runTool c = some ⟨0, .holds b, [.reset, .issue (.imgBuild m v p)]⟩)))
end

