-- ==== Sys2Proof/Laws/Decode.lean ====
section
/-! SUPPORT. The stream pieces of Decode.lean, one lemma each: what reading an encoded piece gives back. -/

namespace Sys2Proof

@[simp] theorem le32_length (v : Word) : (le32 v).length = 4 := rfl

@[simp] theorem zeros_length (n : Nat) : (zeros n).length = n := by simp [zeros]

/-- A BYTES operand has a stream form exactly when its length fits 32 bits (R65). -/
theorem bytesFit_iff (b : Bytes) : bytesFit b = true ↔ b.length < 2 ^ 32 := by
  rw [bytesFit, decide_eq_true_eq, Config.maxPayload]
  omega

theorem bytesFit_zeros (n : Nat) : bytesFit (zeros n) = decide (n < 2 ^ 32) := by
  rw [Bool.eq_iff_iff, bytesFit_iff, zeros_length, decide_eq_true_eq]

/-- The four bytes of a word, joined again, are the word. -/
theorem joinBytes_eq (v : Word) :
    (v.extractLsb' 24 8 ++ v.extractLsb' 16 8 ++ v.extractLsb' 8 8 ++ v.extractLsb' 0 8 : Word) = v := by
  apply BitVec.eq_of_getLsbD_eq
  intro i hi
  simp only [BitVec.getLsbD_append, BitVec.getLsbD_extractLsb']
  split_ifs with h1 h2 h3
  · simp [h1]
  · simp only [h2, decide_true, Bool.true_and]; congr 1; omega
  · simp only [h3, decide_true, Bool.true_and]; congr 1; omega
  · simp only [show i - 8 - 8 - 8 < 8 by omega, decide_true, Bool.true_and]; congr 1; omega

/-- A word joined from four bytes, bit by bit. -/
theorem joined_getLsbD (b0 b1 b2 b3 : Byte) (k : Nat) :
    BitVec.getLsbD (w := 32) (b3 ++ b2 ++ b1 ++ b0) k =
      if k < 8 then b0.getLsbD k else if k < 16 then b1.getLsbD (k - 8)
      else if k < 24 then b2.getLsbD (k - 16) else b3.getLsbD (k - 24) := by
  change BitVec.getLsbD (w := 8 + 8 + 8 + 8) _ k = _
  simp only [BitVec.getLsbD_append]
  split_ifs <;> first | rfl | omega

/-- The bytes of a word joined from four bytes are those bytes (R9). -/
theorem le32_joined (b0 b1 b2 b3 : Byte) : le32 (b3 ++ b2 ++ b1 ++ b0) = [b0, b1, b2, b3] := by
  have h0 : BitVec.extractLsb' (n := 32) 0 8 (b3 ++ b2 ++ b1 ++ b0) = b0 := by
    apply BitVec.eq_of_getLsbD_eq
    intro i hi
    rw [BitVec.getLsbD_extractLsb', joined_getLsbD, if_pos (by omega)]
    simp [hi]
  have h1 : BitVec.extractLsb' (n := 32) 8 8 (b3 ++ b2 ++ b1 ++ b0) = b1 := by
    apply BitVec.eq_of_getLsbD_eq
    intro i hi
    rw [BitVec.getLsbD_extractLsb', joined_getLsbD, if_neg (by omega), if_pos (by omega)]
    simp [hi]
  have h2 : BitVec.extractLsb' (n := 32) 16 8 (b3 ++ b2 ++ b1 ++ b0) = b2 := by
    apply BitVec.eq_of_getLsbD_eq
    intro i hi
    rw [BitVec.getLsbD_extractLsb', joined_getLsbD, if_neg (by omega), if_neg (by omega), if_pos (by omega)]
    simp [hi]
  have h3 : BitVec.extractLsb' (n := 32) 24 8 (b3 ++ b2 ++ b1 ++ b0) = b3 := by
    apply BitVec.eq_of_getLsbD_eq
    intro i hi
    rw [BitVec.getLsbD_extractLsb', joined_getLsbD, if_neg (by omega), if_neg (by omega), if_neg (by omega)]
    simp [hi]
  simp only [le32, h0, h1, h2, h3]

/-- A stream a U32 can be read from begins with that U32's bytes (R65). -/
theorem takeU32_eq_some (bs rest : Bytes) (v : Word) :
    takeU32 bs = some (v, rest) ↔ bs = le32 v ++ rest := by
  constructor
  · intro h
    match bs, h with
    | b0 :: b1 :: b2 :: b3 :: r, h =>
      simp only [takeU32, Option.some.injEq, Prod.mk.injEq] at h
      obtain ⟨rfl, rfl⟩ := h
      rw [le32_joined]
      rfl
  · rintro rfl
    simp only [le32, List.cons_append, List.nil_append, takeU32, joinBytes_eq]

/-- `from_le32` undoes `le32` (R9). -/
@[simp] theorem fromLe32_le32 (v : Word) : fromLe32 (le32 v) = some v := by
  simp only [le32, fromLe32, joinBytes_eq]

/-- A U32 operand at the front of a stream is read back (R65). -/
@[simp] theorem takeU32_le32 (v : Word) (rest : Bytes) : takeU32 (le32 v ++ rest) = some (v, rest) := by
  simp only [le32, List.cons_append, List.nil_append, takeU32, joinBytes_eq]

/-- A BYTES operand at the front of a stream is read back (R65). -/
theorem takeBytes_encodeBytes (b rest : Bytes) (h : bytesFit b = true) :
    takeBytes (encodeBytes b ++ rest) = some (b, rest) := by
  have hl : b.length % 4294967296 = b.length := by
    rw [bytesFit_iff] at h
    omega
  simp [takeBytes, encodeBytes, List.append_assoc, hl]

theorem opcodeOf_code (op : Opcode) : opcodeOf (opcodeCode op) = some op := by
  cases op <;> decide

/-- The command word, bit by bit (R61). -/
theorem word_getLsbD (imm opc : Byte) (k : Nat) :
    BitVec.getLsbD (w := 32) (0#16 ++ imm ++ opc) k =
      if k < 8 then opc.getLsbD k else imm.getLsbD (k - 8) := by
  change BitVec.getLsbD (w := 16 + 8 + 8) _ k = _
  rw [BitVec.getLsbD_append, BitVec.getLsbD_append]
  split_ifs with h1 h2
  · rfl
  · rfl
  · rw [BitVec.getLsbD_of_ge imm _ (by omega)]
    simp

theorem rsvdField_word (imm opc : Byte) : rsvdField (0#16 ++ imm ++ opc) = 0#16 := by
  apply BitVec.eq_of_getLsbD_eq
  intro i hi
  rw [rsvdField, BitVec.getLsbD_extractLsb', word_getLsbD, if_neg (by omega),
    BitVec.getLsbD_of_ge imm _ (by omega)]
  simp

theorem immField_word (imm opc : Byte) : immField (0#16 ++ imm ++ opc) = imm := by
  apply BitVec.eq_of_getLsbD_eq
  intro i hi
  rw [immField, BitVec.getLsbD_extractLsb', word_getLsbD, if_neg (by omega)]
  simp [hi]

theorem opcField_word (imm opc : Byte) : opcField (0#16 ++ imm ++ opc) = opc := by
  apply BitVec.eq_of_getLsbD_eq
  intro i hi
  rw [opcField, BitVec.getLsbD_extractLsb', word_getLsbD, if_pos (by omega)]
  simp [hi]

/-- The word of a command decodes to the command's operation, IMM8 kept (R61, R67). -/
theorem decodeWord_encodeWord (i : Instr) : decodeWord (encodeWord i) = some (opcodeOfInstr i) := by
  rw [decodeWord, encodeWord, rsvdField_word, opcField_word, immField_word, opcodeOf_code]
  cases i <;> simp [opcodeOfInstr, immOfInstr]

end Sys2Proof
end

