-- ==== Sys2Proof/Laws/Buffers.lean ====
section
/-! SUPPORT. Slices and splices of byte buffers (spec/00_scope.md rule R9), and where the pieces of a header and of an
image lie (spec/20_memory.md rule R42). -/

namespace Sys2Proof.Machine

/-- The slice that covers exactly the middle piece is the middle piece. -/
theorem slice_append_middle (a b c : Bytes) (i j : Nat) (hi : i = a.length) (hj : j = a.length + b.length) :
    slice (a ++ (b ++ c)) i j = b := by
  subst hi hj
  simp [slice, List.take_append]

/-- A slice of a slice. -/
theorem slice_slice (b : Bytes) (i j k l : Nat) (h : i + l ≤ j) :
    slice (slice b i j) k l = slice b (i + k) (i + l) := by
  simp [slice, List.take_drop, List.drop_drop, List.take_take, Nat.min_eq_left h]

/-- A slice that ends inside a prefix of the buffer. -/
theorem slice_append_left (a b : Bytes) (i j : Nat) (h : j ≤ a.length) : slice (a ++ b) i j = slice a i j := by
  simp [slice, List.take_append_of_le_length h]

/-- A write over the last piece of a buffer. -/
theorem splice_append_last (a b v : Bytes) (off : Nat) (ho : off = a.length) (hv : v.length = b.length) :
    splice (a ++ b) off v = a ++ v := by
  subst ho
  simp [splice, hv]

/-- `MemRead` is defined exactly inside the buffer, and is then the slice (R9). -/
theorem memRead_eq_some (buf b : Bytes) (off n : Nat) :
    memRead buf off n = some b ↔ off + n ≤ buf.length ∧ b = slice buf off (off + n) := by
  unfold memRead
  split <;> simp_all [eq_comm]

theorem modelField_headerBytes (m v : Bytes) (n c : Word) (rest : Bytes) :
    slice (headerBytes m v n c ++ rest) 0 8 = field8 m := by
  simp only [headerBytes, List.append_assoc]
  exact slice_append_middle [] _ _ _ _ rfl (by simp [field8_length])

theorem versionField_headerBytes (m v : Bytes) (n c : Word) (rest : Bytes) :
    slice (headerBytes m v n c ++ rest) 8 16 = field8 v := by
  simp only [headerBytes, List.append_assoc]
  exact slice_append_middle _ _ _ _ _ (by simp [field8_length]) (by simp [field8_length])

theorem unusedFields_headerBytes (m v : Bytes) (n c : Word) (rest : Bytes) :
    slice (headerBytes m v n c ++ rest) 16 48 = zeros 32 := by
  rw [show headerBytes m v n c ++ rest =
    (field8 m ++ field8 v) ++ (zeros 32 ++ (le32 n ++ (le32 c ++ rest))) by simp [headerBytes]]
  exact slice_append_middle _ _ _ _ _ (by simp [field8_length]) (by simp [field8_length])

theorem filesizeField_headerBytes (m v : Bytes) (n c : Word) (rest : Bytes) :
    slice (headerBytes m v n c ++ rest) 48 52 = le32 n := by
  rw [show headerBytes m v n c ++ rest =
    (field8 m ++ field8 v ++ zeros 32) ++ (le32 n ++ (le32 c ++ rest)) by simp [headerBytes]]
  exact slice_append_middle _ _ _ _ _ (by simp [field8_length]) (by simp [field8_length])

theorem crcField_headerBytes (m v : Bytes) (n c : Word) (rest : Bytes) :
    slice (headerBytes m v n c ++ rest) 52 56 = le32 c := by
  rw [show headerBytes m v n c ++ rest =
    (field8 m ++ field8 v ++ zeros 32 ++ le32 n) ++ (le32 c ++ rest) by simp [headerBytes]]
  exact slice_append_middle _ _ _ _ _ (by simp [field8_length]) (by simp [field8_length])

/-- Stamping the crc field of an encoded header (R138, R139). -/
theorem setCrcField_makeHeader (m v : Bytes) (n c c' : Word) :
    setCrcField (makeHeader m v n c) c' = makeHeader m v n c' := by
  simp only [setCrcField, makeHeader, headerBytes, Config.crcOffset]
  congr 1
  exact splice_append_last _ _ _ _ (by simp [field8_length]) (by simp)

/-- The image as its header, padding and payload. -/
theorem imageBytes_eq (m v p : Bytes) :
    imageBytes m v p = headerBytes m v (lengthWord p) (imageCrc m v p) ++ (zeros 1992 ++ p) := by
  simp [imageBytes, imageHeader, makeHeader]

end Sys2Proof.Machine
end

