-- ==== Sys2Proof/Laws/Crc.lean ====
section
/-! SUPPORT. Small laws of the engine (spec/40_crc_engine.md). -/

namespace Sys2Proof.Machine

/-- Eight bit steps written out (R102). -/
theorem crcByte_eq (c : Word) (b : Byte) :
    crcByte c b =
      bitstep (bitstep (bitstep (bitstep (bitstep (bitstep (bitstep (bitstep (c ^^^ b.setWidth 32)))))))) := rfl

/-- A run of zeros may be taken in parts. -/
theorem accumulate_zeros_add (c : Word) (m n : Nat) :
    accumulate c (zeros (m + n)) = accumulate (accumulate c (zeros m)) (zeros n) := by
  simp only [accumulate, zeros, List.replicate_add, List.foldl_append]

end Sys2Proof.Machine
end

