-- ==== Sys2Proof/Laws/Encode.lean ====
section
/-! SUPPORT. The bytes of a command's word (spec/30_encoding.md rules R61, R65). -/

namespace Sys2Proof

/-- A command's word as stream bytes: OPC, IMM8, and RSVD's two zero bytes. -/
theorem le32_encodeWord (i : Instr) :
    le32 (encodeWord i) = [opcodeCode (opcodeOfInstr i), immOfInstr i, 0#8, 0#8] := by
  have top : ∀ k, 16 ≤ k → BitVec.getLsbD (w := 32) (encodeWord i) k = false := by
    intro k hk
    rw [encodeWord, word_getLsbD, if_neg (by omega), BitVec.getLsbD_of_ge _ _ (by omega)]
  have zero : ∀ off, 16 ≤ off → (encodeWord i).extractLsb' off 8 = 0#8 := by
    intro off ho
    apply BitVec.eq_of_getLsbD_eq
    intro j _
    rw [BitVec.getLsbD_extractLsb', top _ (by omega)]
    simp
  rw [le32, zero 16 (by omega), zero 24 (by omega)]
  exact congrArg₂ (fun x y => [x, y, 0#8, 0#8]) (opcField_word _ _) (immField_word _ _)

end Sys2Proof
end

