-- ==== Sys2Proof/Laws/Flags.lean ====
section
/-! SUPPORT. What the writes to STATUS do to each of its fields. -/

namespace Sys2Proof.Machine

theorem fieldMask_getLsbD (lo len k : Nat) (hk : k < 32) :
    (fieldMask lo len).getLsbD k = (decide (lo ≤ k) && decide (k < lo + len)) := by
  simp only [fieldMask, BitVec.getLsbD_shiftLeft, BitVec.getLsbD_setWidth, BitVec.getLsbD_allOnes, hk]
  by_cases h1 : lo ≤ k <;> by_cases h2 : k < lo + len <;> simp [h1, h2] <;> omega

/-- Bit by bit, `putBits` replaces its field and keeps the rest. -/
theorem putBits_getLsbD (lo len : Nat) (v : BitVec len) (w : Word) (k : Nat) (hk : k < 32) :
    (putBits lo len v w).getLsbD k = if lo ≤ k ∧ k < lo + len then v.getLsbD (k - lo) else w.getLsbD k := by
  simp only [putBits, BitVec.getLsbD_or, BitVec.getLsbD_and, BitVec.getLsbD_not, fieldMask_getLsbD _ _ _ hk,
    BitVec.getLsbD_shiftLeft, BitVec.getLsbD_setWidth, hk]
  by_cases h1 : lo ≤ k <;> by_cases h2 : k < lo + len <;> simp [h1, h2]
  · simp [show ¬(k < lo) by omega, show k - lo < 32 by omega]
  · intro _ h3
    rw [BitVec.getLsbD_of_ge _ _ (by omega)] at h3
    cases h3

theorem setStatusBit_getLsbD (b : Nat) (w : Word) (k : Nat) (hk : k < 32) :
    (setStatusBit b w).getLsbD k = (decide (k = b) || w.getLsbD k) := by
  rw [setStatusBit, putBits_getLsbD _ _ _ _ _ hk]
  by_cases h : k = b
  · subst h; simp
  · rw [if_neg (by omega)]; simp [h]

/-- Bit by bit, fault entry writes bits 0, 7:4, 15:8 and 17:16 and keeps the rest (R205). -/
theorem recordFault_getLsbD (c : Cause) (f : Byte) (a : BitVec 2) (w : Word) (k : Nat) (hk : k < 32) :
    (recordFault c f a w).getLsbD k =
      if 16 ≤ k ∧ k < 18 then a.getLsbD (k - 16)
      else if 8 ≤ k ∧ k < 16 then f.getLsbD (k - 8)
      else if 4 ≤ k ∧ k < 8 then (causeCode c).getLsbD (k - 4)
      else (decide (k = 0) || w.getLsbD k) := by
  rw [recordFault, putBits_getLsbD _ _ _ _ _ hk, putBits_getLsbD _ _ _ _ _ hk,
    putBits_getLsbD _ _ _ _ _ hk, setStatusBit_getLsbD _ _ _ hk]

/-! ### The fields after fault entry -/

@[simp] theorem statusFault_recordFault (c : Cause) (f : Byte) (a : BitVec 2) (w : Word) :
    statusFault (recordFault c f a w) = true := by
  rw [statusFault, recordFault_getLsbD _ _ _ _ _ (by omega)]
  simp

@[simp] theorem statusCause_recordFault (c : Cause) (f : Byte) (a : BitVec 2) (w : Word) :
    statusCause (recordFault c f a w) = causeCode c := by
  apply BitVec.eq_of_getLsbD_eq
  intro i hi
  simp only [statusCause, getBits, BitVec.getLsbD_extractLsb', hi, decide_true, Bool.true_and]
  rw [recordFault_getLsbD _ _ _ _ _ (by omega), if_neg (by omega), if_neg (by omega), if_pos (by omega)]
  congr 1
  omega

@[simp] theorem statusFopc_recordFault (c : Cause) (f : Byte) (a : BitVec 2) (w : Word) :
    statusFopc (recordFault c f a w) = f := by
  apply BitVec.eq_of_getLsbD_eq
  intro i hi
  simp only [statusFopc, getBits, BitVec.getLsbD_extractLsb', hi, decide_true, Bool.true_and]
  rw [recordFault_getLsbD _ _ _ _ _ (by omega), if_neg (by omega), if_pos (by omega)]
  congr 1
  omega

@[simp] theorem statusFarg_recordFault (c : Cause) (f : Byte) (a : BitVec 2) (w : Word) :
    statusFarg (recordFault c f a w) = a := by
  apply BitVec.eq_of_getLsbD_eq
  intro i hi
  simp only [statusFarg, getBits, BitVec.getLsbD_extractLsb', hi, decide_true, Bool.true_and]
  rw [recordFault_getLsbD _ _ _ _ _ (by omega), if_pos (by omega)]
  congr 1
  omega

@[simp] theorem statusAccv_recordFault (c : Cause) (f : Byte) (a : BitVec 2) (w : Word) :
    statusAccv (recordFault c f a w) = statusAccv w := by
  rw [statusAccv, statusAccv, recordFault_getLsbD _ _ _ _ _ (by omega)]
  simp

@[simp] theorem statusHdrv_recordFault (c : Cause) (f : Byte) (a : BitVec 2) (w : Word) :
    statusHdrv (recordFault c f a w) = statusHdrv w := by
  rw [statusHdrv, statusHdrv, recordFault_getLsbD _ _ _ _ _ (by omega)]
  simp

@[simp] theorem statusOutv_recordFault (c : Cause) (f : Byte) (a : BitVec 2) (w : Word) :
    statusOutv (recordFault c f a w) = statusOutv w := by
  rw [statusOutv, statusOutv, recordFault_getLsbD _ _ _ _ _ (by omega)]
  simp

@[simp] theorem statusResv_recordFault (c : Cause) (f : Byte) (a : BitVec 2) (w : Word) :
    statusResv (recordFault c f a w) = statusResv w := by
  rw [statusResv, statusResv, recordFault_getLsbD _ _ _ _ _ (by omega)]
  simp

@[simp] theorem statusValid_recordFault (c : Cause) (f : Byte) (a : BitVec 2) (w : Word) :
    statusValid (recordFault c f a w) = statusValid w := by
  apply BitVec.eq_of_getLsbD_eq
  intro i hi
  simp only [statusValid, getBits, BitVec.getLsbD_extractLsb', hi, decide_true, Bool.true_and]
  rw [recordFault_getLsbD _ _ _ _ _ (by omega), if_neg (by omega), if_neg (by omega), if_neg (by omega)]
  simp

/-- The reserved bits, one by one (R27). -/
theorem statusReserved_getLsbD (w : Word) (k : Nat) :
    (statusReserved w).getLsbD k =
      (w.getLsbD k && (decide (1 ≤ k ∧ k ≤ 3) || decide (18 ≤ k ∧ k ≤ 23) || decide (28 ≤ k ∧ k ≤ 31))) := by
  by_cases hk : k < 32
  · simp only [statusReserved, BitVec.getLsbD_and]
    congr 1
    interval_cases k <;> rfl
  · simp [BitVec.getLsbD_of_ge _ _ (Nat.le_of_not_lt hk)]

@[simp] theorem statusReserved_recordFault (c : Cause) (f : Byte) (a : BitVec 2) (w : Word) :
    statusReserved (recordFault c f a w) = statusReserved w := by
  apply BitVec.eq_of_getLsbD_eq
  intro k hk
  simp only [statusReserved_getLsbD]
  by_cases h : (1 ≤ k ∧ k ≤ 3) ∨ (18 ≤ k ∧ k ≤ 23) ∨ (28 ≤ k ∧ k ≤ 31)
  · rw [recordFault_getLsbD _ _ _ _ _ hk, if_neg (by omega), if_neg (by omega), if_neg (by omega)]
    simp [show k ≠ 0 by omega]
  · have h1 : ¬(1 ≤ k ∧ k ≤ 3) := fun x => h (.inl x)
    have h2 : ¬(18 ≤ k ∧ k ≤ 23) := fun x => h (.inr (.inl x))
    have h3 : ¬(28 ≤ k ∧ k ≤ 31) := fun x => h (.inr (.inr x))
    simp only [h1, h2, h3, decide_false, Bool.or_false, Bool.and_false]

/-! ### The fields after a validity bit is set -/

/-- A field that does not hold bit `b` is as it was. -/
theorem getBits_setStatusBit (lo len b : Nat) (w : Word) (hl : lo + len ≤ 32)
    (h : b < lo ∨ lo + len ≤ b) : getBits lo len (setStatusBit b w) = getBits lo len w := by
  apply BitVec.eq_of_getLsbD_eq
  intro i hi
  simp only [getBits, BitVec.getLsbD_extractLsb', hi, decide_true, Bool.true_and]
  rw [setStatusBit_getLsbD _ _ _ (by omega)]
  simp [show ¬(lo + i = b) by omega]

/-- A validity bit is no reserved bit. -/
theorem statusReserved_setStatusBit (b : Nat) (w : Word) (h1 : 24 ≤ b) (h2 : b ≤ 27) :
    statusReserved (setStatusBit b w) = statusReserved w := by
  apply BitVec.eq_of_getLsbD_eq
  intro k hk
  simp only [statusReserved_getLsbD]
  rw [setStatusBit_getLsbD _ _ _ hk]
  by_cases h : k = b
  · subst h
    have h3 : ¬(1 ≤ k ∧ k ≤ 3) := by omega
    have h4 : ¬(18 ≤ k ∧ k ≤ 23) := by omega
    have h5 : ¬(28 ≤ k ∧ k ≤ 31) := by omega
    simp only [h3, h4, h5, decide_false, Bool.or_false, Bool.and_false]
  · simp [h]

/-- Raising a validity bit touches neither FAULT nor the fault record. -/
theorem faultFields_setStatusBit (b : Nat) (w : Word) (h1 : 24 ≤ b) :
    statusFault (setStatusBit b w) = statusFault w ∧ statusCause (setStatusBit b w) = statusCause w ∧
    statusFopc (setStatusBit b w) = statusFopc w ∧ statusFarg (setStatusBit b w) = statusFarg w := by
  refine ⟨?_, getBits_setStatusBit _ _ _ _ (by omega) (by omega),
    getBits_setStatusBit _ _ _ _ (by omega) (by omega), getBits_setStatusBit _ _ _ _ (by omega) (by omega)⟩
  simp only [statusFault]
  rw [setStatusBit_getLsbD _ _ _ (by omega)]
  simp [show ¬(0 = b) by omega]

end Sys2Proof.Machine
end

