-- ==== Sys2Proof/Laws/State.lean ====
section
/-! SUPPORT. One lemma per field and per update of the state, each true by definition. -/

namespace Sys2Proof.Machine

@[simp] theorem State.writeAcc_acc (s : State) (v : Word) : (s.writeAcc v).acc = some v := rfl
@[simp] theorem State.writeAcc_hdr (s : State) (v : Word) : (s.writeAcc v).hdr = s.hdr := rfl
@[simp] theorem State.writeAcc_out (s : State) (v : Word) : (s.writeAcc v).out = s.out := rfl
@[simp] theorem State.writeAcc_result (s : State) (v : Word) : (s.writeAcc v).result = s.result := rfl
@[simp] theorem State.writeAcc_status (s : State) (v : Word) : (s.writeAcc v).status = s.status := rfl
@[simp] theorem State.writeAcc_phase (s : State) (v : Word) : (s.writeAcc v).phase = s.phase := rfl
@[simp] theorem State.writeAcc_stream (s : State) (v : Word) : (s.writeAcc v).stream = s.stream := rfl
@[simp] theorem State.writeAcc_host (s : State) (v : Word) : (s.writeAcc v).host = s.host := rfl

@[simp] theorem State.writeHdr_acc (s : State) (h : Header) : (s.writeHdr h).acc = s.acc := rfl
@[simp] theorem State.writeHdr_hdr (s : State) (h : Header) : (s.writeHdr h).hdr = some h := rfl
@[simp] theorem State.writeHdr_out (s : State) (h : Header) : (s.writeHdr h).out = s.out := rfl
@[simp] theorem State.writeHdr_result (s : State) (h : Header) : (s.writeHdr h).result = s.result := rfl
@[simp] theorem State.writeHdr_status (s : State) (h : Header) : (s.writeHdr h).status = s.status := rfl
@[simp] theorem State.writeHdr_phase (s : State) (h : Header) : (s.writeHdr h).phase = s.phase := rfl
@[simp] theorem State.writeHdr_stream (s : State) (h : Header) : (s.writeHdr h).stream = s.stream := rfl
@[simp] theorem State.writeHdr_host (s : State) (h : Header) : (s.writeHdr h).host = s.host := rfl

@[simp] theorem State.writeOut_acc (s : State) (b : Bytes) : (s.writeOut b).acc = s.acc := rfl
@[simp] theorem State.writeOut_hdr (s : State) (b : Bytes) : (s.writeOut b).hdr = s.hdr := rfl
@[simp] theorem State.writeOut_out (s : State) (b : Bytes) : (s.writeOut b).out = some b := rfl
@[simp] theorem State.writeOut_result (s : State) (b : Bytes) : (s.writeOut b).result = s.result := rfl
@[simp] theorem State.writeOut_status (s : State) (b : Bytes) : (s.writeOut b).status = s.status := rfl
@[simp] theorem State.writeOut_phase (s : State) (b : Bytes) : (s.writeOut b).phase = s.phase := rfl
@[simp] theorem State.writeOut_stream (s : State) (b : Bytes) : (s.writeOut b).stream = s.stream := rfl
@[simp] theorem State.writeOut_host (s : State) (b : Bytes) : (s.writeOut b).host = s.host := rfl

@[simp] theorem State.writeResult_acc (s : State) (v : Word) : (s.writeResult v).acc = s.acc := rfl
@[simp] theorem State.writeResult_hdr (s : State) (v : Word) : (s.writeResult v).hdr = s.hdr := rfl
@[simp] theorem State.writeResult_out (s : State) (v : Word) : (s.writeResult v).out = s.out := rfl
@[simp] theorem State.writeResult_result (s : State) (v : Word) : (s.writeResult v).result = some v := rfl
@[simp] theorem State.writeResult_status (s : State) (v : Word) : (s.writeResult v).status = s.status := rfl
@[simp] theorem State.writeResult_phase (s : State) (v : Word) : (s.writeResult v).phase = s.phase := rfl
@[simp] theorem State.writeResult_stream (s : State) (v : Word) : (s.writeResult v).stream = s.stream := rfl
@[simp] theorem State.writeResult_host (s : State) (v : Word) : (s.writeResult v).host = s.host := rfl

@[simp] theorem State.setAccv_acc (s : State) : (s.setAccv).acc = s.acc := rfl
@[simp] theorem State.setAccv_hdr (s : State) : (s.setAccv).hdr = s.hdr := rfl
@[simp] theorem State.setAccv_out (s : State) : (s.setAccv).out = s.out := rfl
@[simp] theorem State.setAccv_result (s : State) : (s.setAccv).result = s.result := rfl
@[simp] theorem State.setAccv_status (s : State) : (s.setAccv).status = setStatusBit 24 s.status := rfl
@[simp] theorem State.setAccv_phase (s : State) : (s.setAccv).phase = s.phase := rfl
@[simp] theorem State.setAccv_stream (s : State) : (s.setAccv).stream = s.stream := rfl
@[simp] theorem State.setAccv_host (s : State) : (s.setAccv).host = s.host := rfl

@[simp] theorem State.setHdrv_acc (s : State) : (s.setHdrv).acc = s.acc := rfl
@[simp] theorem State.setHdrv_hdr (s : State) : (s.setHdrv).hdr = s.hdr := rfl
@[simp] theorem State.setHdrv_out (s : State) : (s.setHdrv).out = s.out := rfl
@[simp] theorem State.setHdrv_result (s : State) : (s.setHdrv).result = s.result := rfl
@[simp] theorem State.setHdrv_status (s : State) : (s.setHdrv).status = setStatusBit 25 s.status := rfl
@[simp] theorem State.setHdrv_phase (s : State) : (s.setHdrv).phase = s.phase := rfl
@[simp] theorem State.setHdrv_stream (s : State) : (s.setHdrv).stream = s.stream := rfl
@[simp] theorem State.setHdrv_host (s : State) : (s.setHdrv).host = s.host := rfl

@[simp] theorem State.setOutv_acc (s : State) : (s.setOutv).acc = s.acc := rfl
@[simp] theorem State.setOutv_hdr (s : State) : (s.setOutv).hdr = s.hdr := rfl
@[simp] theorem State.setOutv_out (s : State) : (s.setOutv).out = s.out := rfl
@[simp] theorem State.setOutv_result (s : State) : (s.setOutv).result = s.result := rfl
@[simp] theorem State.setOutv_status (s : State) : (s.setOutv).status = setStatusBit 26 s.status := rfl
@[simp] theorem State.setOutv_phase (s : State) : (s.setOutv).phase = s.phase := rfl
@[simp] theorem State.setOutv_stream (s : State) : (s.setOutv).stream = s.stream := rfl
@[simp] theorem State.setOutv_host (s : State) : (s.setOutv).host = s.host := rfl

@[simp] theorem State.setResv_acc (s : State) : (s.setResv).acc = s.acc := rfl
@[simp] theorem State.setResv_hdr (s : State) : (s.setResv).hdr = s.hdr := rfl
@[simp] theorem State.setResv_out (s : State) : (s.setResv).out = s.out := rfl
@[simp] theorem State.setResv_result (s : State) : (s.setResv).result = s.result := rfl
@[simp] theorem State.setResv_status (s : State) : (s.setResv).status = setStatusBit 27 s.status := rfl
@[simp] theorem State.setResv_phase (s : State) : (s.setResv).phase = s.phase := rfl
@[simp] theorem State.setResv_stream (s : State) : (s.setResv).stream = s.stream := rfl
@[simp] theorem State.setResv_host (s : State) : (s.setResv).host = s.host := rfl

@[simp] theorem State.enterFault_acc (s : State) (c : Cause) (f : Byte) (a : BitVec 2) : (s.enterFault c f a).acc = s.acc := rfl
@[simp] theorem State.enterFault_hdr (s : State) (c : Cause) (f : Byte) (a : BitVec 2) : (s.enterFault c f a).hdr = s.hdr := rfl
@[simp] theorem State.enterFault_out (s : State) (c : Cause) (f : Byte) (a : BitVec 2) : (s.enterFault c f a).out = s.out := rfl
@[simp] theorem State.enterFault_result (s : State) (c : Cause) (f : Byte) (a : BitVec 2) : (s.enterFault c f a).result = s.result := rfl
@[simp] theorem State.enterFault_status (s : State) (c : Cause) (f : Byte) (a : BitVec 2) : (s.enterFault c f a).status = recordFault c f a s.status := rfl
@[simp] theorem State.enterFault_phase (s : State) (c : Cause) (f : Byte) (a : BitVec 2) : (s.enterFault c f a).phase = s.phase := rfl
@[simp] theorem State.enterFault_stream (s : State) (c : Cause) (f : Byte) (a : BitVec 2) : (s.enterFault c f a).stream = s.stream := rfl
@[simp] theorem State.enterFault_host (s : State) (c : Cause) (f : Byte) (a : BitVec 2) : (s.enterFault c f a).host = s.host := rfl

@[simp] theorem State.consume_acc (s : State) (r : Bytes) : (s.consume r).acc = s.acc := rfl
@[simp] theorem State.consume_hdr (s : State) (r : Bytes) : (s.consume r).hdr = s.hdr := rfl
@[simp] theorem State.consume_out (s : State) (r : Bytes) : (s.consume r).out = s.out := rfl
@[simp] theorem State.consume_result (s : State) (r : Bytes) : (s.consume r).result = s.result := rfl
@[simp] theorem State.consume_status (s : State) (r : Bytes) : (s.consume r).status = s.status := rfl
@[simp] theorem State.consume_phase (s : State) (r : Bytes) : (s.consume r).phase = s.phase := rfl
@[simp] theorem State.consume_stream (s : State) (r : Bytes) : (s.consume r).stream = r := rfl
@[simp] theorem State.consume_host (s : State) (r : Bytes) : (s.consume r).host = s.host := rfl

@[simp] theorem State.applyReset_acc (s : State) : (s.applyReset).acc = none := rfl
@[simp] theorem State.applyReset_hdr (s : State) : (s.applyReset).hdr = none := rfl
@[simp] theorem State.applyReset_out (s : State) : (s.applyReset).out = none := rfl
@[simp] theorem State.applyReset_result (s : State) : (s.applyReset).result = none := rfl
@[simp] theorem State.applyReset_status (s : State) : (s.applyReset).status = 0#32 := rfl
@[simp] theorem State.applyReset_phase (s : State) : (s.applyReset).phase = .afterReset := rfl
@[simp] theorem State.applyReset_stream (s : State) : (s.applyReset).stream = [] := rfl
@[simp] theorem State.applyReset_host (s : State) : (s.applyReset).host = s.host := rfl

@[simp] theorem State.withFetchWord_acc (s : State) (n w : Nat) : (s.withFetchWord n w).acc = s.acc := rfl
@[simp] theorem State.withFetchWord_hdr (s : State) (n w : Nat) : (s.withFetchWord n w).hdr = s.hdr := rfl
@[simp] theorem State.withFetchWord_out (s : State) (n w : Nat) : (s.withFetchWord n w).out = s.out := rfl
@[simp] theorem State.withFetchWord_result (s : State) (n w : Nat) : (s.withFetchWord n w).result = s.result := rfl
@[simp] theorem State.withFetchWord_status (s : State) (n w : Nat) : (s.withFetchWord n w).status = s.status := rfl
@[simp] theorem State.withFetchWord_phase (s : State) (n w : Nat) : (s.withFetchWord n w).phase = s.phase := rfl
@[simp] theorem State.withFetchWord_stream (s : State) (n w : Nat) : (s.withFetchWord n w).stream = tableStream n w := rfl
@[simp] theorem State.withFetchWord_host (s : State) (n w : Nat) : (s.withFetchWord n w).host = s.host := rfl

end Sys2Proof.Machine
end

