-- ==== Sys2Proof/Laws/Ops.lean ====
section
/-! SUPPORT. For each shared operation, once, everything it can answer. -/

namespace Sys2Proof.Machine

/-! ### The gate -/

theorem runCommand_running (s : State) (r : Result) (hp : s.phase = .afterReset)
    (hf : statusFault s.status = false) : runCommand s r = r := by
  simp [runCommand, hp, hf]

theorem runCommand_halted (s : State) (r : Result) (hp : s.phase = .afterReset)
    (hf : statusFault s.status = true) : runCommand s r = .next s := by
  simp [runCommand, hp, hf]

theorem runCommand_beforeReset (s : State) (r : Result) (hp : s.phase = .beforeReset) :
    runCommand s r = .refused .beforeReset := by
  simp [runCommand, hp]

/-- If the gate answers a next state, the block is halted and nothing changed, or it runs and the effect answers. -/
theorem runCommand_next (s t : State) (r : Result) (h : runCommand s r = .next t) :
    s.phase = .afterReset ∧
      ((statusFault s.status = true ∧ t = s) ∨ (statusFault s.status = false ∧ r = .next t)) := by
  unfold runCommand at h
  split at h
  · cases h
  · rename_i hp
    refine ⟨hp, ?_⟩
    cases hf : statusFault s.status <;> simp [hf] at h
    · exact .inr ⟨rfl, h⟩
    · exact .inl ⟨rfl, h.symm⟩

/-! ### Reads that may fault -/

theorem readAcc_some (op : Opcode) (s : State) (k : Word → Result) (c : Word) (h : s.acc = some c) :
    readAcc op s k = k c := by
  simp [readAcc, h]

theorem readAcc_none (op : Opcode) (s : State) (k : Word → Result) (h : s.acc = none) :
    readAcc op s k = .next (s.enterFault .accUnseeded (opcodeCode op) 0#2) := by
  simp [readAcc, h, raiseFault]

theorem readHdr_some (op : Opcode) (s : State) (k : Header → Result) (d : Header) (h : s.hdr = some d) :
    readHdr op s k = k d := by
  simp [readHdr, h]

theorem readHdr_none (op : Opcode) (s : State) (k : Header → Result) (h : s.hdr = none) :
    readHdr op s k = .next (s.enterFault .hdrUnwritten (opcodeCode op) 0#2) := by
  simp [readHdr, h, raiseFault]

theorem checked_none (op : Opcode) (s : State) (r : Result) : checked op none s r = r := rfl

theorem checked_some (op : Opcode) (s : State) (r : Result) (c : Cause) (a : BitVec 2) :
    checked op (some (c, a)) s r = .next (s.enterFault c (opcodeCode op) a) := rfl

/-! ### Operand checks -/

theorem hasZeroByte_iff (b : Bytes) : hasZeroByte b = true ↔ 0#8 ∈ b := by
  simp [hasZeroByte]

/-- The identifiers' checks, in operand order (R203). -/
theorem checkIdentifiers_eq (m v : Bytes) :
    checkIdentifiers m v =
      if 0#8 ∈ m then some (.invalidArgument, 1#2)
      else if 0#8 ∈ v then some (.invalidArgument, 2#2) else none := by
  simp [checkIdentifiers, hasZeroByte_iff]

/-- IMG.BUILD's checks, in operand order (R203). -/
theorem checkBuild_eq (m v p : Bytes) :
    checkBuild m v p =
      if 0#8 ∈ m then some (.invalidArgument, 1#2)
      else if 0#8 ∈ v then some (.invalidArgument, 2#2)
      else if 2 ^ 32 ≤ p.length then some (.lengthOverflow, 3#2) else none := by
  have hl : lengthOverflows p = decide (2 ^ 32 ≤ p.length) := by
    simp [lengthOverflows, Config.maxPayload, Nat.lt_iff_add_one_le]
  rw [checkBuild, checkIdentifiers_eq, hl]
  split_ifs <;> simp_all
  omega

/-! ### The meanings, one equation each for a running block -/

section
variable (s : State) (hp : s.phase = .afterReset) (hf : statusFault s.status = false)
include hp hf

theorem execCrcSeed_running (v : Word) : execCrcSeed v s = .next (s.writeAcc v).setAccv :=
  runCommand_running s _ hp hf

theorem execCrcByte_seeded (b : Byte) (c : Word) (h : s.acc = some c) :
    execCrcByte b s = .next (s.writeAcc (crcByte c b)) := by
  rw [execCrcByte, runCommand_running s _ hp hf, readAcc_some _ _ _ _ h]

theorem execCrcAccum_seeded (d : Bytes) (c : Word) (h : s.acc = some c) :
    execCrcAccum d s = .next (s.writeAcc (accumulate c d)) := by
  rw [execCrcAccum, runCommand_running s _ hp hf, readAcc_some _ _ _ _ h]

theorem execCrcRead_seeded (c : Word) (h : s.acc = some c) :
    execCrcRead s = .next (s.writeResult c).setResv := by
  rw [execCrcRead, runCommand_running s _ hp hf, readAcc_some _ _ _ _ h]

theorem execHdrEncode_passing (m v : Bytes) (n : Word) (hm : 0#8 ∉ m) (hv : 0#8 ∉ v) :
    execHdrEncode m v n s = .next (s.writeHdr (makeHeader m v n 0#32)).setHdrv := by
  rw [execHdrEncode, runCommand_running s _ hp hf, checkIdentifiers_eq, if_neg hm, if_neg hv, checked_none]

theorem execHdrSerialize_written (h : Header) (hh : s.hdr = some h) :
    execHdrSerialize s = .next (s.writeOut h.bytes).setOutv := by
  rw [execHdrSerialize, runCommand_running s _ hp hf, readHdr_some _ _ _ _ hh]

theorem execHdrSetcrc_written (v : Word) (h : Header) (hh : s.hdr = some h) :
    execHdrSetcrc v s = .next (s.writeHdr (setCrcField h v)) := by
  rw [execHdrSetcrc, runCommand_running s _ hp hf, readHdr_some _ _ _ _ hh]

theorem execImgBuild_passing (m v p : Bytes) (hm : 0#8 ∉ m) (hv : 0#8 ∉ v) (hl : p.length < 2 ^ 32) :
    execImgBuild m v p s =
      .next ((((s.writeOut (imageBytes m v p)).writeHdr (imageHeader m v p)).writeAcc
        (imageCrc m v p)).setAccv.setHdrv.setOutv) := by
  rw [execImgBuild, runCommand_running s _ hp hf, checkBuild_eq, if_neg hm, if_neg hv,
    if_neg (by omega), checked_none]

end

end Sys2Proof.Machine
end

