-- ==== Sys2Proof/Laws/Safety.lean ====
section
/-! SUPPORT. The terms of Safety.lean met by the shared operations. -/

namespace Sys2Proof.Machine

theorem statusRaises_setStatusBit (k : Nat) (w : Word) : StatusRaises [k] w (setStatusBit k w) := by
  intro j hj
  simp [setStatusBit_getLsbD _ _ _ hj]

theorem statusRaises_comp (ks ls : List Nat) (w w1 w2 : Word) (h1 : StatusRaises ks w w1)
    (h2 : StatusRaises ls w1 w2) : StatusRaises (ks ++ ls) w w2 := by
  intro j hj
  rw [h2 j hj, h1 j hj, ← Bool.or_assoc]
  by_cases ha : j ∈ ks <;> by_cases hb : j ∈ ls <;> simp [ha, hb]

/-- A register read of a running block that finds the empty mark answers the fault's next state. -/
theorem runCommand_readAcc_none (op : Opcode) (s : State) (k : Word → Result) (hs : Ready s) (h : s.acc = none) :
    runCommand s (readAcc op s k) = .next (s.enterFault .accUnseeded (opcodeCode op) 0#2) := by
  rw [runCommand_running _ _ hs.1 hs.2, readAcc_none _ _ _ h]

theorem runCommand_readHdr_none (op : Opcode) (s : State) (k : Header → Result) (hs : Ready s) (h : s.hdr = none) :
    runCommand s (readHdr op s k) = .next (s.enterFault .hdrUnwritten (opcodeCode op) 0#2) := by
  rw [runCommand_running _ _ hs.1 hs.2, readHdr_none _ _ _ h]

/-- A failing operand check of a running block answers the fault's next state. -/
theorem runCommand_checked_some (op : Opcode) (s : State) (r : Result) (c : Cause) (a : BitVec 2) (hs : Ready s) :
    runCommand s (checked op (some (c, a)) s r) = .next (s.enterFault c (opcodeCode op) a) := by
  rw [runCommand_running _ _ hs.1 hs.2, checked_some]

end Sys2Proof.Machine
end

