-- ==== Sys2Proof/Laws/Exec.lean ====
section
/-! SUPPORT. What `exec` can do, once for all commands: an inversion that later proofs cite instead of unfolding the
meanings. -/

namespace Sys2Proof.Machine

/-- The completed effect of each command (R110-R113, R136-R138, R161). -/
def Completed (i : Instr) (s t : State) : Prop :=
  match i with
  | .crcSeed v => t = (s.writeAcc v).setAccv
  | .crcByte b => ∃ c, s.acc = some c ∧ t = s.writeAcc (crcByte c b)
  | .crcAccum d => ∃ c, s.acc = some c ∧ t = s.writeAcc (accumulate c d)
  | .crcRead => ∃ c, s.acc = some c ∧ t = (s.writeResult c).setResv
  | .hdrEncode m v n => t = (s.writeHdr (makeHeader m v n 0#32)).setHdrv
  | .hdrSerialize => ∃ h, s.hdr = some h ∧ t = (s.writeOut h.bytes).setOutv
  | .hdrSetcrc v => ∃ h, s.hdr = some h ∧ t = s.writeHdr (setCrcField h v)
  | .imgBuild m v p =>
    p.length < 2 ^ 32 ∧
    t = (((s.writeOut (imageBytes m v p)).writeHdr (imageHeader m v p)).writeAcc
      (imageCrc m v p)).setAccv.setHdrv.setOutv

/-- No command touches the stream, the host's moves or the phase (R30, R54). -/
theorem completed_keeps (i : Instr) (s t : State) (h : Completed i s t) :
    t.phase = s.phase ∧ t.stream = s.stream ∧ t.host = s.host := by
  cases i with
  | crcSeed v => cases h; exact ⟨rfl, rfl, rfl⟩
  | crcByte b => obtain ⟨c, _, rfl⟩ := h; exact ⟨rfl, rfl, rfl⟩
  | crcAccum d => obtain ⟨c, _, rfl⟩ := h; exact ⟨rfl, rfl, rfl⟩
  | crcRead => obtain ⟨c, _, rfl⟩ := h; exact ⟨rfl, rfl, rfl⟩
  | hdrEncode m v n => cases h; exact ⟨rfl, rfl, rfl⟩
  | hdrSerialize => obtain ⟨d, _, rfl⟩ := h; exact ⟨rfl, rfl, rfl⟩
  | hdrSetcrc v => obtain ⟨d, _, rfl⟩ := h; exact ⟨rfl, rfl, rfl⟩
  | imgBuild m v p => obtain ⟨_, rfl⟩ := h; exact ⟨rfl, rfl, rfl⟩

/-- The validity bits a completed command raises (R27). -/
def raisedBits : Instr → List Nat
  | .crcSeed _ => [24]
  | .crcByte _ => []
  | .crcAccum _ => []
  | .crcRead => [27]
  | .hdrEncode _ _ _ => [25]
  | .hdrSerialize => [26]
  | .hdrSetcrc _ => []
  | .imgBuild _ _ _ => [24, 25, 26]

theorem statusRaises_nil (w : Word) : StatusRaises [] w w := by
  intro j _
  simp

/-- A completed command raises its validity bits and leaves every other bit of STATUS (R27). -/
theorem completed_status (i : Instr) (s t : State) (h : Completed i s t) :
    StatusRaises (raisedBits i) s.status t.status := by
  cases i with
  | crcSeed v => cases h; exact statusRaises_setStatusBit 24 _
  | crcByte b => obtain ⟨c, _, rfl⟩ := h; exact statusRaises_nil _
  | crcAccum d => obtain ⟨c, _, rfl⟩ := h; exact statusRaises_nil _
  | crcRead => obtain ⟨c, _, rfl⟩ := h; exact statusRaises_setStatusBit 27 _
  | hdrEncode m v n => cases h; exact statusRaises_setStatusBit 25 _
  | hdrSerialize => obtain ⟨d, _, rfl⟩ := h; exact statusRaises_setStatusBit 26 _
  | hdrSetcrc v => obtain ⟨d, _, rfl⟩ := h; exact statusRaises_nil _
  | imgBuild m v p =>
    obtain ⟨_, rfl⟩ := h
    exact statusRaises_comp [24] [25, 26] _ _ _ (statusRaises_setStatusBit 24 _)
      (statusRaises_comp [25] [26] _ _ _ (statusRaises_setStatusBit 25 _) (statusRaises_setStatusBit 26 _))

/-- A completed command leaves FAULT as it was. -/
theorem completed_fault (i : Instr) (s t : State) (h : Completed i s t) :
    statusFault t.status = statusFault s.status := by
  have h0 := completed_status i s t h 0 (by omega)
  simp only [statusFault, h0]
  cases i <;> simp [raisedBits]

/-- What a running block does with a command: the fault of the tables, or the completed effect. -/
theorem exec_ready (i : Instr) (s : State) (hs : Ready s) :
    (∃ c a, expectedFault i s = some (c, a) ∧ exec i s = .next (s.enterFault c (opcOf i) a)) ∨
    (expectedFault i s = none ∧ ∃ t, exec i s = .next t ∧ Completed i s t) := by
  cases i with
  | crcSeed v => exact .inr ⟨rfl, _, execCrcSeed_running s hs.1 hs.2 v, rfl⟩
  | crcByte b =>
    cases h : s.acc with
    | none => exact .inl ⟨_, _, by simp [expectedFault, h], runCommand_readAcc_none _ s _ hs h⟩
    | some c => exact .inr ⟨by simp [expectedFault, h], _, execCrcByte_seeded s hs.1 hs.2 b c h, c, h, rfl⟩
  | crcAccum d =>
    cases h : s.acc with
    | none => exact .inl ⟨_, _, by simp [expectedFault, h], runCommand_readAcc_none _ s _ hs h⟩
    | some c => exact .inr ⟨by simp [expectedFault, h], _, execCrcAccum_seeded s hs.1 hs.2 d c h, c, h, rfl⟩
  | crcRead =>
    cases h : s.acc with
    | none => exact .inl ⟨_, _, by simp [expectedFault, h], runCommand_readAcc_none _ s _ hs h⟩
    | some c => exact .inr ⟨by simp [expectedFault, h], _, execCrcRead_seeded s hs.1 hs.2 c h, c, h, rfl⟩
  | hdrEncode m v n =>
    have e : checkIdentifiers m v = expectedFault (.hdrEncode m v n) s := checkIdentifiers_eq m v
    cases h : expectedFault (.hdrEncode m v n) s with
    | none =>
      refine .inr ⟨rfl, _, ?_, rfl⟩
      rw [exec, execHdrEncode, runCommand_running _ _ hs.1 hs.2, e, h, checked_none]
    | some x =>
      refine .inl ⟨x.1, x.2, rfl, ?_⟩
      rw [exec, execHdrEncode, e, h]
      exact runCommand_checked_some _ s _ x.1 x.2 hs
  | hdrSerialize =>
    cases h : s.hdr with
    | none => exact .inl ⟨_, _, by simp [expectedFault, h], runCommand_readHdr_none _ s _ hs h⟩
    | some d => exact .inr ⟨by simp [expectedFault, h], _, execHdrSerialize_written s hs.1 hs.2 d h, d, h, rfl⟩
  | hdrSetcrc v =>
    cases h : s.hdr with
    | none => exact .inl ⟨_, _, by simp [expectedFault, h], runCommand_readHdr_none _ s _ hs h⟩
    | some d => exact .inr ⟨by simp [expectedFault, h], _, execHdrSetcrc_written s hs.1 hs.2 v d h, d, h, rfl⟩
  | imgBuild m v p =>
    have e : checkBuild m v p = expectedFault (.imgBuild m v p) s := checkBuild_eq m v p
    cases h : expectedFault (.imgBuild m v p) s with
    | none =>
      have hl : p.length < 2 ^ 32 := by
        simp only [expectedFault] at h
        split_ifs at h
        omega
      refine .inr ⟨rfl, _, ?_, hl, rfl⟩
      rw [exec, execImgBuild, runCommand_running _ _ hs.1 hs.2, e, h, checked_none]
    | some x =>
      refine .inl ⟨x.1, x.2, rfl, ?_⟩
      rw [exec, execImgBuild, e, h]
      exact runCommand_checked_some _ s _ x.1 x.2 hs

theorem exec_halted (i : Instr) (s : State) (hs : Halted s) : exec i s = .next s := by
  cases i <;> exact runCommand_halted s _ hs.1 hs.2

theorem exec_beforeReset (i : Instr) (s : State) (h : s.phase = .beforeReset) :
    exec i s = .refused .beforeReset := by
  cases i <;> exact runCommand_beforeReset s _ h

/-- If a command answers a next state: the block was halted and nothing changed, or it ran and faulted as the tables
say, or it ran and completed. -/
theorem exec_next (i : Instr) (s t : State) (h : exec i s = .next t) :
    (Halted s ∧ t = s) ∨
    (Ready s ∧ ∃ c a, expectedFault i s = some (c, a) ∧ t = s.enterFault c (opcOf i) a) ∨
    (Ready s ∧ expectedFault i s = none ∧ Completed i s t) := by
  cases hp : s.phase with
  | beforeReset => rw [exec_beforeReset i s hp] at h; cases h
  | afterReset =>
    cases hf : statusFault s.status with
    | true =>
      rw [exec_halted i s ⟨hp, hf⟩] at h
      cases h
      exact .inl ⟨⟨hp, hf⟩, rfl⟩
    | false =>
      rcases exec_ready i s ⟨hp, hf⟩ with ⟨c, a, he, hx⟩ | ⟨he, u, hx, hc⟩
      · rw [hx] at h
        cases h
        exact .inr (.inl ⟨⟨hp, hf⟩, c, a, he, rfl⟩)
      · rw [hx] at h
        cases h
        exact .inr (.inr ⟨⟨hp, hf⟩, he, hc⟩)

/-- The fault a command takes is a row of R201's table. -/
theorem expectedFault_row (i : Instr) (s : State) (c : Cause) (a : BitVec 2)
    (h : expectedFault i s = some (c, a)) : c ≠ .noFault ∧ FaultRow (causeCode c) (opcOf i) a := by
  cases i <;> simp only [expectedFault] at h
  case crcSeed => cases h
  all_goals
    split_ifs at h <;> simp only [Option.some.injEq, Prod.mk.injEq] at h <;> obtain ⟨rfl, rfl⟩ := h <;>
      simp [FaultRow, causeCode, opcOf, opcodeCode, opcodeOfInstr]

end Sys2Proof.Machine
end

