-- ==== Sys2Proof/Laws/PerInstr.lean ====
section
/-! SUPPORT. Per-instruction laws of the syntax. CommandWord: a command's word has RSVD 0, its own OPC, IMM8 0 unless
it is CRC.BYTE (spec/30_encoding.md rules R61 and R66), and decodes to the command's operation (R67). -/

namespace Sys2Proof.Laws.CommandWord

/-- What the word of `i` says. -/
def Statement (i : Instr) : Prop :=
  rsvdField (encodeWord i) = 0#16 ∧ opcField (encodeWord i) = opcodeCode (opcodeOfInstr i) ∧
  immField (encodeWord i) = immOfInstr i ∧ decodeWord (encodeWord i) = some (opcodeOfInstr i)

/-- The fields are those the encoder laid out. -/
theorem of_fields (i : Instr) : Statement i :=
  ⟨rsvdField_word _ _, opcField_word _ _, immField_word _ _, decodeWord_encodeWord i⟩

theorem crcSeed (seed : Word) : Statement (.crcSeed seed) := of_fields _

theorem crcByte (b : Byte) : Statement (.crcByte b) := of_fields _

theorem crcAccum (data : Bytes) : Statement (.crcAccum data) := of_fields _

theorem crcRead : Statement (.crcRead) := of_fields _

theorem hdrEncode (model version : Bytes) (payloadLen : Word) : Statement (.hdrEncode model version payloadLen) := of_fields _

theorem hdrSerialize : Statement (.hdrSerialize) := of_fields _

theorem hdrSetcrc (value : Word) : Statement (.hdrSetcrc value) := of_fields _

theorem imgBuild (model version payload : Bytes) : Statement (.imgBuild model version payload) := of_fields _

end Sys2Proof.Laws.CommandWord
end

