-- ==== Sys2Proof/Laws/Step.lean ====
section
/-! SUPPORT. What a step can do, once. -/

namespace Sys2Proof.Machine

theorem decode_nil : decode [] = .incomplete := rfl

theorem step_command (s : State) (i : Instr) (rest : Bytes) (h : decode s.stream = .command i rest) :
    step s = exec i (s.consume rest) := by
  simp [step, fetch, h]

theorem step_illegal (s : State) (w : Word) (rest : Bytes) (h : decode s.stream = .illegal w rest) :
    step s = illegalCommand w (s.consume rest) := by
  simp [step, fetch, h]

theorem step_deliver (s : State) (bs : Bytes) (moves : List HostMove) (h : decode s.stream = .incomplete)
    (hh : s.host = .deliver bs :: moves) :
    step s = .next { s with stream := s.stream ++ bs, host := moves } := by
  simp [step, fetch, h, hostMove, hh]

theorem step_reset (s : State) (moves : List HostMove) (h : s.stream = []) (hh : s.host = .reset :: moves) :
    step s = .next { State.reset with host := moves } := by
  simp [step, fetch, h, decode_nil, hostMove, hh, State.applyReset]

theorem step_issue (s : State) (i : Instr) (moves : List HostMove) (h : s.stream = [])
    (hh : s.host = .issue i :: moves) : step s = exec i { s with host := moves } := by
  simp [step, fetch, h, decode_nil, hostMove, hh]

/-- If a step answers a next state, it ran a command or an ILLEGAL word of the stream, took a delivery, was the reset, or
ran a command in abstract form. -/
theorem step_next (s t : State) (h : step s = .next t) :
    (∃ i rest, decode s.stream = .command i rest ∧ exec i (s.consume rest) = .next t) ∨
    (∃ w rest, decode s.stream = .illegal w rest ∧ illegalCommand w (s.consume rest) = .next t) ∨
    (∃ bs moves, s.host = .deliver bs :: moves ∧ t = { s with stream := s.stream ++ bs, host := moves }) ∨
    (∃ moves, s.host = .reset :: moves ∧ s.stream = [] ∧ t = { State.reset with host := moves }) ∨
    (∃ i moves, s.host = .issue i :: moves ∧ s.stream = [] ∧ exec i { s with host := moves } = .next t) := by
  cases hd : decode s.stream with
  | command i rest => exact .inl ⟨i, rest, rfl, by rw [← step_command s i rest hd, h]⟩
  | illegal w rest => exact .inr (.inl ⟨w, rest, rfl, by rw [← step_illegal s w rest hd, h]⟩)
  | incomplete =>
    cases hh : s.host with
    | nil => simp [step, fetch, hd, hostMove, hh] at h
    | cons move moves =>
      cases move with
      | deliver bs =>
        rw [step_deliver s bs moves hd hh] at h
        cases h
        exact .inr (.inr (.inl ⟨bs, moves, rfl, rfl⟩))
      | reset =>
        by_cases hs : s.stream = []
        · rw [step_reset s moves hs hh] at h
          cases h
          exact .inr (.inr (.inr (.inl ⟨moves, rfl, hs, rfl⟩)))
        · simp [step, fetch, hd, hostMove, hh, hs] at h
      | issue i =>
        by_cases hs : s.stream = []
        · exact .inr (.inr (.inr (.inr ⟨i, moves, rfl, hs, by rw [← step_issue s i moves hs hh, h]⟩)))
        · simp [step, fetch, hd, hostMove, hh, hs] at h

/-- If an ILLEGAL word answers a next state: the block was halted and nothing changed, or it took the fault. -/
theorem illegalCommand_next (w : Word) (s t : State) (h : illegalCommand w s = .next t) :
    (Halted s ∧ t = s) ∨ (Ready s ∧ t = s.enterFault .illegalCommand (opcField w) 0#2) := by
  obtain ⟨hp, ⟨hf, rfl⟩ | ⟨hf, hr⟩⟩ := runCommand_next s t _ h
  · exact .inl ⟨⟨hp, hf⟩, rfl⟩
  · refine .inr ⟨⟨hp, hf⟩, ?_⟩
    rw [raiseFault] at hr
    cases hr
    rfl

end Sys2Proof.Machine
end

