-- ==== Sys2Proof/Tests/Slice0.lean ====
section
/-! SUPPORT. The model's own tests. Expected values come from the tables of spec/95_test_vectors.md and the examples of
the rules; each test names its source. The witnesses at the end show that no statement's hypotheses are empty. -/

namespace Sys2Proof.Tests

open Sys2Proof.Machine

/-! ### Helpers -/

/-- The next state of a result, if it is one. -/
def nextOf : Result → Option State
  | .next s => some s
  | .fault _ => none
  | .refused _ => none

/-- The STATUS after a result. -/
def statusOf (r : Result) : Option Word := (nextOf r).map State.status

/-- The ACC after a result. -/
def accOf (r : Result) : Option (Option Word) := (nextOf r).map State.acc

/-- A block whose accumulator is seeded. -/
def seeded (c : Word) : State := { State.reset with acc := some c, status := 0x01000000#32 }

/-- A block whose header is encoded for the worked example (R136). -/
def encoded : State :=
  { State.reset with hdr := some (makeHeader [0x41#8, 0x41#8] [0x31#8] 3#32 0#32), status := 0x02000000#32 }

/-- A block halted by CRC.READ (P4 line 1). -/
def halted : State := { State.reset with status := 0x00000441#32 }

/-- A block before its first reset. -/
def unreset : State := { State.reset with phase := .beforeReset }

/-- A stream that ends inside CRC.SEED's operand. -/
def partSeed : State := { State.reset with stream := [0x01#8, 0#8, 0#8, 0#8, 0xFF#8] }

/-! ### Well-formedness: an ill-formed term for each check (R65) -/

theorem test_illformed_accum : wellFormed (.crcAccum (zeros 4294967296)) = false := by
  rw [wellFormed, bytesFit_zeros]
  decide

theorem test_illformed_encode_model : wellFormed (.hdrEncode (zeros 4294967296) [] 0#32) = false := by
  rw [wellFormed, bytesFit_zeros]
  decide

theorem test_illformed_encode_version : wellFormed (.hdrEncode [] (zeros 4294967296) 0#32) = false := by
  rw [wellFormed, bytesFit_zeros]
  decide

theorem test_illformed_build_model : wellFormed (.imgBuild (zeros 4294967296) [] []) = false := by
  rw [wellFormed, bytesFit_zeros]
  decide

theorem test_illformed_build_version : wellFormed (.imgBuild [] (zeros 4294967296) []) = false := by
  rw [wellFormed, bytesFit_zeros]
  decide

theorem test_illformed_build_payload : wellFormed (.imgBuild [] [] (zeros 4294967296)) = false := by
  rw [wellFormed, bytesFit_zeros]
  decide

theorem test_wellformed_largest : wellFormed (.crcAccum (zeros 4294967295)) = true := by
  rw [wellFormed, bytesFit_zeros]
  decide

/-! ### Decoding: words written out from R61, R63, R65 and the programs P1 to P3 -/

/-- P1 line 3. -/
theorem test_decode_seed :
    decode [0x01#8, 0x00#8, 0x00#8, 0x00#8, 0xFF#8, 0xFF#8, 0xFF#8, 0x7F#8] = .command (.crcSeed 0x7FFFFFFF#32) [] := by
  decide

/-- P3 line 2: the word 0x00003102. -/
theorem test_decode_byte : decode [0x02#8, 0x31#8, 0x00#8, 0x00#8] = .command (.crcByte 0x31#8) [] := by decide

/-- P1 line 5, with a byte of the next command behind it. -/
theorem test_decode_accum :
    decode [0x03#8, 0#8, 0#8, 0#8, 0x03#8, 0#8, 0#8, 0#8, 1#8, 2#8, 3#8, 0x04#8] =
      .command (.crcAccum [1#8, 2#8, 3#8]) [0x04#8] := by decide

theorem test_decode_read : decode [0x04#8, 0#8, 0#8, 0#8] = .command .crcRead [] := by decide

/-- P1 line 1. -/
theorem test_decode_encode :
    decode [0x10#8, 0#8, 0#8, 0#8, 0x02#8, 0#8, 0#8, 0#8, 0x41#8, 0x41#8, 0x01#8, 0#8, 0#8, 0#8, 0x31#8,
      0x03#8, 0#8, 0#8, 0#8] = .command (.hdrEncode [0x41#8, 0x41#8] [0x31#8] 3#32) [] := by decide

theorem test_decode_serialize : decode [0x11#8, 0#8, 0#8, 0#8] = .command .hdrSerialize [] := by decide

/-- P1 line 7. -/
theorem test_decode_setcrc :
    decode [0x12#8, 0#8, 0#8, 0#8, 0x60#8, 0xE3#8, 0x73#8, 0x52#8] = .command (.hdrSetcrc 0x5273E360#32) [] := by
  decide

/-- P2 line 1. -/
theorem test_decode_build :
    decode [0x20#8, 0#8, 0#8, 0#8, 0x02#8, 0#8, 0#8, 0#8, 0x41#8, 0x41#8, 0x01#8, 0#8, 0#8, 0#8, 0x31#8,
      0x03#8, 0#8, 0#8, 0#8, 1#8, 2#8, 3#8] =
      .command (.imgBuild [0x41#8, 0x41#8] [0x31#8] [1#8, 2#8, 3#8]) [] := by decide

/-- D-DEC: IMM8 outside CRC.BYTE, RSVD, a reserved OPC and the zero word are ILLEGAL and take no operand. -/
theorem test_decode_illegal :
    decodeWord 0x00000101#32 = none ∧ decodeWord 0x00010002#32 = none ∧ decodeWord 0x80000004#32 = none ∧
    decodeWord 0x00000013#32 = none ∧ decodeWord 0x000000FF#32 = none ∧ decodeWord 0x00000120#32 = none ∧
    decode [0#8, 0#8, 0#8, 0#8, 9#8] = .illegal 0#32 [9#8] := by decide

/-- R67: an operand not delivered in full. -/
theorem test_decode_incomplete :
    decode [] = .incomplete ∧ decode [0x01#8, 0#8, 0#8] = .incomplete ∧
    decode [0x03#8, 0#8, 0#8, 0#8, 2#8, 0#8, 0#8, 0#8, 1#8] = .incomplete := by decide

theorem test_table_words :
    decodeTableWord 32 0x01 = some (.crcSeed 0#32) ∧ decodeTableWord 32 0xFF02 = some (.crcByte 0xFF#8) ∧
    decodeTableWord 32 0x03 = some (.crcAccum []) ∧ decodeTableWord 32 0x04 = some .crcRead ∧
    decodeTableWord 32 0x10 = some (.hdrEncode [] [] 0#32) ∧ decodeTableWord 32 0x11 = some .hdrSerialize ∧
    decodeTableWord 32 0x12 = some (.hdrSetcrc 0#32) ∧ decodeTableWord 32 0x20 = some (.imgBuild [] [] []) ∧
    decodeTableWord 32 0x05 = none := by decide

/-! ### The engine's functions (D-BIT, D-BYTE, D-ACC, R250-R252) -/

theorem test_bitstep :
    bitstep 0x00000003#32 = 0xEDB88321#32 ∧ bitstep 0x80000000#32 = 0x40000000#32 ∧
    bitstep 0xFFFFFFFF#32 = 0x92477CDF#32 := by decide

theorem test_accumulate_chained :
    accumulate 0x7C231048#32 [0x32#8, 0x33#8] = 0x77B79C2D#32 ∧
    accumulate 0#32 [1#8, 2#8, 3#8] = 0xAAFD590F#32 := by decide +kernel

/-- R112: the check string; finalized, which the block never does, it would be 0xCBF43926. -/
theorem test_accumulate_check_string :
    accumulate 0xFFFFFFFF#32 [0x31#8, 0x32#8, 0x33#8, 0x34#8, 0x35#8, 0x36#8, 0x37#8, 0x38#8, 0x39#8] =
      0x340BC6D9#32 := by decide +kernel

/-- R250 to R252: each mistake gives the wrong value the spec quotes. -/
theorem test_hazard_values :
    accumulate 0xFFFFFFFF#32 (headerBytes [0x41#8, 0x41#8] [0x31#8] 3#32 0x5273E360#32 ++ [1#8, 2#8, 3#8]) =
      0x96639B9F#32 ∧
    accumulate 0xFFFFFFFF#32 ([1#8, 2#8, 3#8] ++ headerBytes [0x41#8, 0x41#8] [0x31#8] 3#32 0#32) = 0x33FBF393#32 ∧
    accumulate 0xFFFFFFFF#32 [1#8, 2#8, 3#8] = 0xAA437FE2#32 := by decide +kernel

/-- D-HDR: 0, 7, 8 and 10 bytes. -/
theorem test_field8 :
    field8 [] = zeros 8 ∧
    field8 [0x41#8, 0x42#8, 0x43#8, 0x44#8, 0x45#8, 0x46#8, 0x47#8] =
      [0x41#8, 0x42#8, 0x43#8, 0x44#8, 0x45#8, 0x46#8, 0x47#8, 0#8] ∧
    field8 [0x41#8, 0x42#8, 0x43#8, 0x44#8, 0x45#8, 0x46#8, 0x47#8, 0x48#8, 0x49#8, 0x4A#8] =
      [0x41#8, 0x42#8, 0x43#8, 0x44#8, 0x45#8, 0x46#8, 0x47#8, 0x48#8] := by decide

/-! ### The commands, one step each -/

/-- D-SEED. -/
theorem test_seed :
    accOf (exec (.crcSeed 0xFFFFFFFF#32) State.reset) = some (some 0xFFFFFFFF#32) ∧
    statusOf (exec (.crcSeed 0xFFFFFFFF#32) State.reset) = some 0x01000000#32 := by decide +kernel

/-- D-SEED: an earlier value is replaced. -/
theorem test_seed_replaces : accOf (exec (.crcSeed 0#32) (seeded 0x5273E360#32)) = some (some 0#32) := by
  decide +kernel

/-- D-BYTE. -/
theorem test_byte :
    accOf (exec (.crcByte 0x00#8) (seeded 0xFFFFFFFF#32)) = some (some 0x2DFD1072#32) ∧
    accOf (exec (.crcByte 0x41#8) (seeded 0xFFFFFFFF#32)) = some (some 0x2C266174#32) ∧
    accOf (exec (.crcByte 0x78#8) (seeded 0x12345678#32)) = some (some 0x00123456#32) := by decide +kernel

/-- D-BYTE, last row. -/
theorem test_byte_unseeded : statusOf (exec (.crcByte 0x41#8) State.reset) = some 0x00000241#32 := by
  decide +kernel

/-- D-ACC: data that is le32(seed) leaves 0; empty data leaves the seed. -/
theorem test_accum :
    accOf (exec (.crcAccum [0xD9#8, 0xC6#8, 0x0B#8, 0x34#8]) (seeded 0x340BC6D9#32)) = some (some 0#32) ∧
    accOf (exec (.crcAccum []) (seeded 0xFFFFFFFF#32)) = some (some 0xFFFFFFFF#32) := by decide +kernel

/-- D-ACC, last row: the check is made for empty data too. -/
theorem test_accum_unseeded : statusOf (exec (.crcAccum []) State.reset) = some 0x00000341#32 := by
  decide +kernel

/-- D-READ: raw, not finalized. -/
theorem test_read :
    (nextOf (exec .crcRead (seeded 0x340BC6D9#32))).map State.result = some (some 0x340BC6D9#32) ∧
    statusOf (exec .crcRead (seeded 0x340BC6D9#32)) = some 0x09000000#32 := by decide +kernel

/-- D-READ. -/
theorem test_read_unseeded :
    statusOf (exec .crcRead State.reset) = some 0x00000441#32 ∧
    (nextOf (exec .crcRead State.reset)).map State.result = some none := by decide +kernel

/-- D-HDR and P1 line 1. -/
theorem test_encode :
    (nextOf (exec (.hdrEncode [0x41#8, 0x41#8] [0x31#8] 3#32) State.reset)).map
      (fun s => s.hdr.map Header.bytes) =
      some (some ([0x41#8, 0x41#8] ++ zeros 6 ++ [0x31#8] ++ zeros 39 ++ [3#8, 0#8, 0#8, 0#8] ++ zeros 4)) ∧
    statusOf (exec (.hdrEncode [0x41#8, 0x41#8] [0x31#8] 3#32) State.reset) = some 0x02000000#32 := by
  decide +kernel

/-- D-HDR: the model is checked first. -/
theorem test_encode_faults :
    statusOf (exec (.hdrEncode [0x41#8, 0#8, 0x42#8] [0x31#8] 0#32) State.reset) = some 0x00011011#32 ∧
    statusOf (exec (.hdrEncode [0x41#8] [0#8] 0#32) State.reset) = some 0x00021011#32 ∧
    statusOf (exec (.hdrEncode [0#8] [0#8] 0#32) State.reset) = some 0x00011011#32 := by decide +kernel

/-- P1 line 2. -/
theorem test_serialize :
    (nextOf (exec .hdrSerialize encoded)).map (fun s => s.out.map List.length) = some (some 56) ∧
    statusOf (exec .hdrSerialize encoded) = some 0x06000000#32 := by decide +kernel

/-- D-HDR. -/
theorem test_serialize_unwritten : statusOf (exec .hdrSerialize State.reset) = some 0x00001151#32 := by
  decide +kernel

/-- R138's example; R255: OUT is not touched. -/
theorem test_setcrc :
    (nextOf (exec (.hdrSetcrc 0x5273E360#32) encoded)).map
      (fun s => (s.hdr.map fun h => h.bytes.drop 48, s.out)) =
      some (some [3#8, 0#8, 0#8, 0#8, 0x60#8, 0xE3#8, 0x73#8, 0x52#8], none) := by decide +kernel

/-- D-HDR. -/
theorem test_setcrc_unwritten : statusOf (exec (.hdrSetcrc 1#32) State.reset) = some 0x00001251#32 := by
  decide +kernel

/-- D-IMG row 1: the checksum, the length, the stamped field and the payload. -/
theorem test_build :
    accOf (exec (.imgBuild [0x41#8, 0x41#8] [0x31#8] [1#8, 2#8, 3#8]) State.reset) = some (some 0x5273E360#32) ∧
    (nextOf (exec (.imgBuild [0x41#8, 0x41#8] [0x31#8] [1#8, 2#8, 3#8]) State.reset)).map
      (fun s => s.out.map fun b => (b.length, slice b 48 56, b.drop 2048)) =
      some (some (2051, [3#8, 0#8, 0#8, 0#8, 0x60#8, 0xE3#8, 0x73#8, 0x52#8], [1#8, 2#8, 3#8])) := by
  decide +kernel

/-- D-IMG faults: priority, and OUT stays as it was. -/
theorem test_build_faults :
    statusOf (exec (.imgBuild [0x41#8, 0#8, 0x42#8] [0x78#8, 0#8] []) State.reset) = some 0x00012011#32 ∧
    statusOf (exec (.imgBuild [0x41#8] [0x78#8, 0#8] [1#8]) State.reset) = some 0x00022011#32 ∧
    (nextOf (exec (.imgBuild [0#8] [] []) State.reset)).map State.out = some none := by decide +kernel

/-! ### Steps: halting, waiting, reset, delivery -/

/-- D-HALT row 1: the seed after the fault is consumed with no effect. -/
theorem test_step_halted :
    nextOf (step { halted with stream := [0x01#8, 0#8, 0#8, 0#8, 0xFF#8, 0xFF#8, 0xFF#8, 0xFF#8] }) = some halted := by
  decide +kernel

/-- P4 line 4: the word 0x00000101 takes no operand. -/
theorem test_step_illegal :
    (nextOf (step { State.reset with stream := [0x01#8, 0x01#8, 0#8, 0#8, 7#8] })).map
      (fun s => (s.status, s.stream)) = some (0x00000131#32, [7#8]) := by decide +kernel

/-- P4: reset clears the fault. -/
theorem test_step_reset : nextOf (step { halted with host := [.reset] }) = some State.reset := by decide +kernel

/-- U13: the rest of CRC.SEED's operand arrives. -/
theorem test_step_deliver :
    (nextOf (step { partSeed with host := [.deliver [0xFF#8, 0xFF#8, 0xFF#8]] })).map
      (fun s => decode s.stream) = some (.command (.crcSeed 0xFFFFFFFF#32) []) := by decide +kernel

theorem test_step_waits :
    step State.reset = .fault .waitingForCommand ∧ step partSeed = .fault .waitingForOperands :=
  ⟨rfl, rfl⟩

theorem test_step_fetch_word :
    (nextOf (step (State.reset.withFetchWord 32 0x20))).map (fun s => (s.acc, s.status, s.stream)) =
      some (some 0x2C375AB6#32, 0x07000000#32, []) := by decide +kernel

/-! ### Text and host table -/

/-- R71, R72: a string with an escape, zeros(n), a comment, a pseudo-instruction. -/
theorem test_assemble :
    assembleLine ['i', 'm', 'g', '.', 'b', 'u', 'i', 'l', 'd', ' ', quoteChar, 'A', escapeChar, 'x', '0', '0',
      quoteChar, ',', ' ', '[', ']', ',', 'z', 'e', 'r', 'o', 's', '(', '2', ')', ' ', '#', 'c'] =
      some [.imgBuild [0x41#8, 0#8] [] [0#8, 0#8]] ∧
    assembleLine ['c', 'r', 'c', '.', 'i', 'n', 'i', 't'] = some [.crcSeed 0xFFFFFFFF#32] ∧
    assembleLine ['c', 'r', 'c', '.', 'b', 'y', 't', 'e', ' ', '2', '5', '6'] = none ∧
    assembleLine ['#', ' ', 'x'] = some [] := by decide +kernel

theorem test_print :
    assembleLine (printInstr (.hdrEncode [0xAB#8, 0x01#8] [] 0xDEADBEEF#32)) =
      some [.hdrEncode [0xAB#8, 0x01#8] [] 0xDEADBEEF#32] := by decide +kernel

/-- X3. -/
theorem test_tool_wrong_count : runTool ⟨[[], [], []], some [], true⟩ = some ⟨1, .notWritten, []⟩ := by decide +kernel

/-! ### Witnesses: states and operands that meet the hypotheses of the statements -/

theorem witness_BitstepShiftsAndXorsPolynomial : (31 : Nat) < 32 ∧ (0 : Nat) < 32 := by decide

theorem witness_TableFormEqualsBitForm : (255 : Nat) < 256 ∧ (0 : Nat) < 256 := by decide

theorem witness_CrcSeedLoadsAccumulator : Ready State.reset := by decide

theorem witness_CrcByteFoldsOneByte :
    (Ready (seeded 0#32) ∧ (seeded 0#32).acc = some 0#32) ∧ (Ready State.reset ∧ State.reset.acc = none) ∧
    crcByte 0#32 0#8 = 0#32 := by decide

theorem witness_CrcAccumFoldsSequence :
    (Ready (seeded 0xFFFFFFFF#32) ∧ (seeded 0xFFFFFFFF#32).acc = some 0xFFFFFFFF#32) ∧
    (Ready State.reset ∧ State.reset.acc = none) := by decide

theorem witness_CrcReadCopiesRawAccumulator :
    (Ready (seeded 5#32) ∧ (seeded 5#32).acc = some 5#32) ∧ (Ready State.reset ∧ State.reset.acc = none) := by decide

theorem witness_Field8TruncatesOrFills :
    ([1#8, 2#8, 3#8, 4#8, 5#8, 6#8, 7#8] : Bytes).length < 8 ∧
    ([1#8, 2#8, 3#8, 4#8, 5#8, 6#8, 7#8, 8#8] : Bytes).length = 8 ∧
    8 < ([1#8, 2#8, 3#8, 4#8, 5#8, 6#8, 7#8, 8#8, 9#8] : Bytes).length := by decide

theorem witness_HeaderBytesLayout : (7 : Nat) < 8 ∧ (0 : Nat) < 8 := by decide

theorem witness_HdrEncodeBuildsHeader :
    (Ready State.reset ∧ (0#8 ∉ ([0x41#8] : Bytes)) ∧ (0#8 ∉ ([] : Bytes))) ∧
    ¬ (0#8 ∉ ([0x41#8, 0#8] : Bytes)) := by decide

theorem witness_HdrSerializeCopiesHeader :
    (Ready encoded ∧ encoded.hdr = some (makeHeader [0x41#8, 0x41#8] [0x31#8] 3#32 0#32)) ∧
    (Ready State.reset ∧ State.reset.hdr = none) := by decide

theorem witness_HdrSetcrcWritesCrcField :
    (Ready encoded ∧ encoded.hdr.isSome = true) ∧ (Ready State.reset ∧ State.reset.hdr = none) := by decide

/-- For IMG.BUILD's statements (ImgBuildWritesWholeImage, ImageRegionsAreAsMapped, BuiltImageVerifies,
BuildEqualsPrimitiveSequence, BuildDependsOnOperandsOnly): a fitting payload in two different states. -/
theorem witness_ImgBuildWritesWholeImage :
    Ready State.reset ∧ Ready (seeded 1#32) ∧ ZeroFree [0x41#8] ∧ ZeroFree [] ∧
    ([1#8, 2#8, 3#8] : Bytes).length < 2 ^ 32 ∧ ¬ ZeroFree [0#8] := by
  simp [ZeroFree]
  decide

/-- The largest payload that fits and the smallest that does not. -/
theorem witness_OverlongPayloadFaults :
    2 ^ 32 ≤ (zeros 4294967296).length ∧ (zeros 4294967295).length < 2 ^ 32 ∧ Ready State.reset ∧
    ZeroFree [0x41#8] ∧
    ({ State.reset with host := [.issue (.imgBuild [0x41#8] [] (zeros 4294967296))] } : State).stream = [] := by
  refine ⟨by rw [zeros_length]; decide, by rw [zeros_length]; decide, by decide, by simp [ZeroFree], rfl⟩

theorem witness_FaultsFollowTableAndPriority :
    Ready State.reset ∧ expectedFault .crcRead State.reset = some (.accUnseeded, 0#2) ∧
    expectedFault .crcRead (seeded 1#32) = none ∧
    Ready { State.reset with stream := zeros 4 } ∧
    decode ({ State.reset with stream := zeros 4 } : State).stream = .illegal 0#32 [] := by decide

theorem witness_FaultEntryWritesOnlyStatus :
    Ready State.reset ∧ statusOf (exec .hdrSerialize State.reset) = some 0x00001151#32 ∧
    statusFault 0x00001151#32 = true := by decide +kernel

theorem witness_HaltedBlockConsumesWithoutEffect :
    Halted halted ∧ decode ({ halted with stream := [0x04#8, 0#8, 0#8, 0#8] } : State).stream = .command .crcRead [] ∧
    decode ({ halted with stream := zeros 4 } : State).stream = .illegal 0#32 [] := by decide

theorem witness_OnlyResetClearsFault :
    Halted { halted with host := [.reset] } ∧ nextOf (step { halted with host := [.reset] }) = some State.reset ∧
    nextOf (step { halted with stream := [0x04#8, 0#8, 0#8, 0#8] }) = some halted := by decide +kernel

theorem witness_ResetSetsEveryRegister :
    ({ halted with host := [.reset] } : State).stream = [] ∧
    ({ halted with host := [.reset] } : State).host = .reset :: [] := by decide

theorem witness_BeforeResetIsRefused :
    unreset.phase = .beforeReset ∧ ({ unreset with host := [.reset] } : State).stream = [] ∧
    ({ unreset with host := [.reset] } : State).host = .reset :: [] := by decide

theorem witness_EveryCommandAnswersAfterReset : halted.phase = .afterReset ∧ State.reset.phase = .afterReset := by
  decide

/-- For RegistersHaveOnlyTheirWriters, OutAndResultAreNeverRead and CommandsIgnoreTheStream: commands that answer a next
state, each changing one register. -/
theorem witness_RegistersHaveOnlyTheirWriters :
    accOf (exec (.crcSeed 1#32) State.reset) = some (some 1#32) ∧
    (nextOf (exec (.hdrEncode [] [] 0#32) State.reset)).map (fun s => s.hdr.isSome) = some true ∧
    (nextOf (exec .hdrSerialize encoded)).map (fun s => s.out.isSome) = some true ∧
    (nextOf (exec .crcRead (seeded 1#32))).map (fun s => s.result.isSome) = some true := by decide +kernel

/-- Reset meets the three invariants, and a step from it is a next state: a seed delivered whole. -/
theorem witness_StatusStaysLegal :
    AfterReset StatusLegal { State.reset with stream := [0x01#8, 0#8, 0#8, 0#8, 1#8, 0#8, 0#8, 0#8] } ∧
    (nextOf (step { State.reset with stream := [0x01#8, 0#8, 0#8, 0#8, 1#8, 0#8, 0#8, 0#8] })).isSome = true :=
  ⟨fun _ => ⟨by decide, by decide, fun h => absurd h (by decide), rfl, rfl, rfl, rfl⟩, by decide +kernel⟩

theorem witness_ValidityBitsStaySet :
    (nextOf (step { seeded 1#32 with stream := [0x04#8, 0#8, 0#8, 0#8] })).isSome = true ∧
    (seeded 1#32).status.getLsbD 24 = true := by decide +kernel

/-- A written header meets the invariant, and HDR.SETCRC steps from it. -/
theorem witness_UnusedFieldsStayZero :
    (AfterReset UnusedZero { encoded with stream := [0x12#8, 0#8, 0#8, 0#8, 1#8, 0#8, 0#8, 0#8] }) ∧
    (nextOf (step { encoded with stream := [0x12#8, 0#8, 0#8, 0#8, 1#8, 0#8, 0#8, 0#8] })).isSome = true := by
  refine ⟨?_, by decide +kernel⟩
  rintro - h hh
  have e : makeHeader [0x41#8, 0x41#8] [0x31#8] 3#32 0#32 = h := Option.some.inj hh
  subst e
  decide

/-- An OUT of 56 bytes meets the invariant, and HDR.SERIALIZE steps from it. -/
theorem witness_OutStaysSound :
    (AfterReset OutSound { encoded with out := some (zeros 56), stream := [0x11#8, 0#8, 0#8, 0#8] }) ∧
    (nextOf (step { encoded with out := some (zeros 56), stream := [0x11#8, 0#8, 0#8, 0#8] })).isSome = true := by
  refine ⟨?_, by decide +kernel⟩
  rintro - b hb
  cases hb
  exact .inl (by decide)

theorem witness_IllegalWordsDecodeAndFault :
    (Ready ({ State.reset with stream := le32 0x00000005#32 ++ [1#8] } : State) ∧ decodeWord 0x00000005#32 = none) ∧
    (decode partSeed.stream = .incomplete ∧ partSeed.host = []) ∧
    decodeWord 0x00000020#32 = some .imgBuild := by decide

/-- For StreamRoundTrip, ProperPartIsIncomplete, DecodedStreamIsTheEncoding and StepRunsDecodedCommand. -/
theorem witness_StreamRoundTrip :
    wellFormed (.imgBuild [0x41#8] [] [1#8]) = true ∧ 17 < (encode (.imgBuild [0x41#8] [] [1#8])).length ∧
    decode ([0x04#8, 0#8, 0#8, 0#8] ++ [7#8]) = .command .crcRead [7#8] := by decide

theorem witness_StepRunsDecodedCommand :
    decode ({ State.reset with stream := [0x04#8, 0#8, 0#8, 0#8] } : State).stream = .command .crcRead [] ∧
    ({ State.reset with host := [.issue .crcRead] } : State).stream = [] ∧
    ({ State.reset with host := [.issue .crcRead] } : State).host = .issue .crcRead :: [] := by decide

theorem witness_StreamAndAbstractFormsAgree :
    wellFormed (.crcSeed 1#32) = true ∧
    ({ State.reset with host := [.deliver (encode (.crcSeed 1#32))] } : State).stream = [] := by decide

/-- For DeliveryChangesNoRegister and BrokenOffCommandIsRefused: a delivery, a reset and a command while a command is
incomplete. -/
theorem witness_DeliveryChangesNoRegister :
    decode partSeed.stream = .incomplete ∧ partSeed.stream ≠ [] ∧
    ({ partSeed with host := [.deliver [1#8]] } : State).host = .deliver [1#8] :: [] ∧
    step { partSeed with host := [.reset] } = .refused .commandBrokenOff ∧
    step { partSeed with host := [.issue .crcRead] } = .refused .commandBrokenOff :=
  ⟨by decide, by decide, rfl, rfl, rfl⟩

theorem witness_WordsAreLittleEndian : (3 : Nat) < 4 ∧ fromLe32 [3#8, 0#8, 0#8, 0#8] = some 3#32 := by decide

theorem witness_PseudoInstructionsExpand :
    Ready State.reset ∧ Ready (seeded 2#32) ∧ (seeded 2#32).acc = some 2#32 := by decide

theorem witness_ObservationFollowsValidityBits :
    (seeded 1#32).phase = .afterReset ∧ StatusLegal (seeded 1#32) :=
  ⟨rfl, ⟨by decide, by decide, fun h => absurd h (by decide), rfl, rfl, rfl, rfl⟩⟩

theorem witness_EmptyByteRowIsNoCommand :
    (Ready (seeded 2#32) ∧ (seeded 2#32).acc = some 2#32) ∧ (Ready State.reset ∧ State.reset.acc = none) := by decide

/-- One call for each row of the host table. -/
theorem witness_HostTableOutcomes :
    (ToolCall.mk [] none true).args.length ≠ 4 ∧
    ((ToolCall.mk [[], [], [], []] none true).args.length = 4 ∧ (ToolCall.mk [[], [], [], []] none true).input = none) ∧
    ((ToolCall.mk [[0#8], [], [], []] (some []) true).args = [[0#8], [], [], []] ∧ ¬ ZeroFree [0#8]) ∧
    (ZeroFree [] ∧ ([] : Bytes).length < 2 ^ 32) ∧
    (ToolCall.mk [[], [], [], []] (some []) false).outputWritable = false := by
  simp [ZeroFree]

end Sys2Proof.Tests
end

section
/-! SUPPORT. Proofs of the statements about the state (spec/10_state.md). -/

namespace Sys2Proof.Proofs

open Sys2Proof.Machine

/-- Settles O27: with nothing delivered the step takes the host's reset, whose next state is `State.reset` but for the
host's later moves, and R31's reset values are that state's fields. -/
theorem resetSetsEveryRegister : Obligations.ResetSetsEveryRegister := by
  intro s moves hstream hhost
  have hstep : step s = .next { State.reset with host := moves } := step_reset s moves hstream hhost
  exact ⟨{ State.reset with host := moves }, hstep, rfl, rfl, rfl, rfl, rfl⟩

end Sys2Proof.Proofs
end

section
/-! SUPPORT. Proofs of the statements about the encoding (spec/30_encoding.md): ILLEGAL words and the
pseudo-instructions. -/

namespace Sys2Proof.Proofs

open Sys2Proof.Machine

/-! ### The opcode map and ILLEGAL words (R63, R67) -/

/-- `opcodeOf` reads back exactly the code `opcodeCode` gives. -/
theorem opcodeOf_eq_some_iff (b : Byte) (op : Opcode) : opcodeOf b = some op ↔ opcodeCode op = b := by
  constructor
  · intro h
    simp only [opcodeOf] at h
    split_ifs at h <;> cases h <;> exact Eq.symm ‹_›
  · rintro rfl
    exact opcodeOf_code op

/-- A reserved OPC is one the map of R63 does not list. -/
theorem opcodeOf_eq_none_iff (b : Byte) :
    opcodeOf b = none ↔ b ∉ [0x01#8, 0x02#8, 0x03#8, 0x04#8, 0x10#8, 0x11#8, 0x12#8, 0x20#8] := by
  constructor
  · intro h hb
    have hsome : ∃ op, opcodeCode op = b := by
      simp only [List.mem_cons, List.not_mem_nil, or_false] at hb
      rcases hb with rfl | rfl | rfl | rfl | rfl | rfl | rfl | rfl
      exacts [⟨.crcSeed, rfl⟩, ⟨.crcByte, rfl⟩, ⟨.crcAccum, rfl⟩, ⟨.crcRead, rfl⟩, ⟨.hdrEncode, rfl⟩,
        ⟨.hdrSerialize, rfl⟩, ⟨.hdrSetcrc, rfl⟩, ⟨.imgBuild, rfl⟩]
    obtain ⟨op, rfl⟩ := hsome
    rw [opcodeOf_code] at h
    cases h
  · intro hb
    cases h : opcodeOf b with
    | none => rfl
    | some op =>
      rw [← (opcodeOf_eq_some_iff b op).mp h] at hb
      exact absurd (by cases op <;> decide) hb

/-- OPC 0x02 is CRC.BYTE's alone. -/
theorem opcodeCode_eq_crcByte_iff (op : Opcode) : opcodeCode op = 0x02#8 ↔ op = .crcByte := by
  cases op <;> decide

/-- The operation of a legal word is the one its bits 7:0 name. -/
theorem opcodeOf_of_decodeWord (w : Word) (op : Opcode) (h : decodeWord w = some op) :
    opcodeOf (opcField w) = some op := by
  unfold decodeWord at h
  split_ifs at h
  cases ho : opcodeOf (opcField w) with
  | none => simp [ho] at h
  | some o =>
    simp only [ho] at h
    split_ifs at h
    exact h

/-- The three checks of R67: a word is ILLEGAL exactly when it fails one of them. -/
theorem decodeWord_eq_none_iff (w : Word) :
    decodeWord w = none ↔
      rsvdField w ≠ 0#16 ∨ opcodeOf (opcField w) = none ∨ (opcField w ≠ 0x02#8 ∧ immField w ≠ 0#8) := by
  by_cases hr : rsvdField w = 0#16
  · cases ho : opcodeOf (opcField w) with
    | none => simp [decodeWord, hr, ho]
    | some op =>
      have hcode : opcField w = opcodeCode op := ((opcodeOf_eq_some_iff _ _).mp ho).symm
      simp [decodeWord, hr, hcode, opcodeOf_code, opcodeCode_eq_crcByte_iff]
  · simp [decodeWord, hr]

/-- An ILLEGAL word at the front of the stream is complete without operands (R67). -/
theorem decode_illegal (w : Word) (rest : Bytes) (h : decodeWord w = none) :
    decode (le32 w ++ rest) = .illegal w rest := by
  simp [decode, h]

/-! ### The step on an ILLEGAL word and on an incomplete command (R67, R205) -/

/-- Fault entry is what R202 and R205 allow a fault to change. -/
theorem faultTaken_enterFault (c : Cause) (f : Byte) (a : BitVec 2) (s : State) :
    FaultTaken c f a s (s.enterFault c f a) := by
  refine ⟨rfl, ?_⟩
  simp

/-- A running block that meets an ILLEGAL word enters the fault with FOPC the word's bits 7:0 (R67, R202). -/
theorem illegalCommand_ready (w : Word) (s : State) (hs : Ready s) :
    illegalCommand w s = .next (s.enterFault .illegalCommand (opcField w) 0#2) :=
  runCommand_running s _ hs.1 hs.2

/-- With an incomplete command and no move of the host the block waits (R67, U13). -/
theorem step_waits (s : State) (hd : decode s.stream = .incomplete) (hh : s.host = []) :
    step s = .fault (waitFault s) := by
  simp [step, fetch, hd, hostMove, hh]

/-- Settles O38: `decodeWord_eq_none_iff` and the opcode map say which words are ILLEGAL; such a word is complete by
itself, so the step is its fault entry; an incomplete command only waits. -/
theorem illegalWordsDecodeAndFault : Obligations.IllegalWordsDecodeAndFault := by
  refine ⟨fun w => ?_, fun w op h => ?_, by decide, fun s w rest hs hstream hw => ?_, fun s t hd hh => ?_⟩
  · rw [decodeWord_eq_none_iff, opcodeOf_eq_none_iff]
    rfl
  · exact (opcodeOf_eq_some_iff _ _).mp (opcodeOf_of_decodeWord w op h)
  · have hdecode : decode s.stream = .illegal w rest := by rw [hstream, decode_illegal w rest hw]
    refine ⟨(s.consume rest).enterFault .illegalCommand (opcField w) 0#2, ?_, faultTaken_enterFault _ _ _ _⟩
    rw [step_illegal s w rest hdecode, illegalCommand_ready w (s.consume rest) hs]
  · rw [step_waits s hd hh]
    nofun

/-! ### The pseudo-instructions (R72) -/

/-- Writing to ACC the value it holds changes nothing. -/
theorem writeAcc_self (s : State) (c : Word) (h : s.acc = some c) : s.writeAcc c = s := by
  rw [State.writeAcc, ← h]

/-- The commands of a byte row, run on a seeded accumulator, do what CRC.ACCUM does with the same bytes; the empty row
is included. -/
theorem execAll_crcBytes (bs : Bytes) (s : State) (c : Word) (hs : Ready s) (h : s.acc = some c) :
    execAll (expand (.crcBytes bs)) s = exec (.crcAccum bs) s := by
  induction bs generalizing s c with
  | nil =>
    have haccum : exec (.crcAccum []) s = .next (s.writeAcc c) := execCrcAccum_seeded s hs.1 hs.2 [] c h
    rw [haccum, writeAcc_self s c h]
    rfl
  | cons b bs ih =>
    have hbyte : exec (.crcByte b) s = .next (s.writeAcc (crcByte c b)) := execCrcByte_seeded s hs.1 hs.2 b c h
    calc execAll (expand (.crcBytes (b :: bs))) s
      _ = andThen (exec (.crcByte b) s) (execAll (expand (.crcBytes bs))) := rfl
      _ = execAll (expand (.crcBytes bs)) (s.writeAcc (crcByte c b)) := by rw [hbyte, andThen]
      _ = exec (.crcAccum bs) (s.writeAcc (crcByte c b)) := ih _ _ hs rfl
      _ = .next (s.writeAcc (accumulate c (b :: bs))) :=
        execCrcAccum_seeded (s.writeAcc (crcByte c b)) hs.1 hs.2 bs (crcByte c b) rfl
      _ = exec (.crcAccum (b :: bs)) s := (execCrcAccum_seeded s hs.1 hs.2 (b :: bs) c h).symm

/-- The next state of `crc.accumulate x, d` on a running block: the accumulator seeded, folded and read. -/
theorem execAll_crcAccumulate (x : Word) (d : Bytes) (s : State) (hs : Ready s) :
    execAll (expand (.crcAccumulate x d)) s =
      .next ((((s.writeAcc x).setAccv.writeAcc (accumulate x d)).writeResult (accumulate x d)).setResv) := by
  have hfault : statusFault (s.writeAcc x).setAccv.status = false :=
    (faultFields_setStatusBit 24 s.status (by omega)).1.trans hs.2
  have hseed : exec (.crcSeed x) s = .next (s.writeAcc x).setAccv := execCrcSeed_running s hs.1 hs.2 x
  have haccum : exec (.crcAccum d) (s.writeAcc x).setAccv =
      .next ((s.writeAcc x).setAccv.writeAcc (accumulate x d)) :=
    execCrcAccum_seeded (s.writeAcc x).setAccv hs.1 hfault d x rfl
  have hread : exec .crcRead ((s.writeAcc x).setAccv.writeAcc (accumulate x d)) =
      .next (((s.writeAcc x).setAccv.writeAcc (accumulate x d)).writeResult (accumulate x d)).setResv :=
    execCrcRead_seeded ((s.writeAcc x).setAccv.writeAcc (accumulate x d)) hs.1 hfault (accumulate x d) rfl
  simp only [expand, execAll, hseed, haccum, hread, andThen]

/-- Settles O48: the expansions are the rows of R72's table, `execAll_crcAccumulate` gives the final state of
`crc.accumulate`, and `execAll_crcBytes` that of `crc.bytes`. -/
theorem pseudoInstructionsExpand : Obligations.PseudoInstructionsExpand := by
  refine ⟨⟨rfl, fun _ _ => rfl, fun _ _ => rfl⟩, fun x d s hs => ?_, fun b bs s c hs h => ?_⟩
  · exact ⟨_, execAll_crcAccumulate x d s hs, rfl, rfl, rfl, rfl⟩
  · exact execAll_crcBytes (b :: bs) s c hs h

end Sys2Proof.Proofs
end

section
/-! SUPPORT. Proofs of the statements about the CRC engine (spec/40_crc_engine.md): the bit step, the byte step and its
table form, and the four CRC commands. -/

namespace Sys2Proof.Proofs

open Sys2Proof.Machine

/-! ### The bit step (R101) -/

/-- R101 read at one bit; beyond bit 31 both sides are `false`. -/
theorem bitstep_getLsbD (c : Word) (k : Nat) :
    (bitstep c).getLsbD k = xor (c.getLsbD (k + 1)) (c.getLsbD 0 && Config.polyRefl.getLsbD k) := by
  unfold bitstep
  cases c.getLsbD 0 <;> simp [Nat.add_comm 1 k]

/-- Settles O1: the equation of `bitstep_getLsbD`, with the polynomial written out. -/
theorem bitstepShiftsAndXorsPolynomial : Obligations.BitstepShiftsAndXorsPolynomial :=
  fun c k _ => bitstep_getLsbD c k

/-- The bit step is linear over XOR. -/
theorem bitstep_xor : Function.Semiconj₂ bitstep (· ^^^ ·) (· ^^^ ·) := by
  intro x y
  apply BitVec.eq_of_getLsbD_eq
  intro k _
  simp only [bitstep_getLsbD, BitVec.getLsbD_xor, Bool.and_xor_distrib_right, Bool.xor_assoc, Bool.xor_left_comm]

/-- Bit steps that meet only zeros at bit 0 are plain shifts. -/
theorem bitstep_iterate_of_low_zero (n : Nat) (c : Word) (h : ∀ j < n, c.getLsbD j = false) :
    bitstep^[n] c = c >>> n := by
  induction n generalizing c with
  | zero => simp
  | succ n ih =>
    have hstep : bitstep c = c >>> 1 := by rw [bitstep, h 0 (by omega)]; rfl
    rw [Function.iterate_succ_apply, hstep, ih, ← BitVec.shiftRight_add, Nat.add_comm 1 n]
    intro j hj
    simp [h (1 + j) (by omega)]

/-! ### The byte step and its table form (R102, R103) -/

/-- The byte step is linear over XOR in accumulator and byte together. -/
theorem crcByte_xor (c1 c2 : Word) (b1 b2 : Byte) :
    crcByte (c1 ^^^ c2) (b1 ^^^ b2) = crcByte c1 b1 ^^^ crcByte c2 b2 := by
  have hin : (c1 ^^^ c2) ^^^ (b1 ^^^ b2).setWidth 32 = (c1 ^^^ b1.setWidth 32) ^^^ (c2 ^^^ b2.setWidth 32) := by
    rw [BitVec.setWidth_xor]
    ac_rfl
  rw [crcByte, hin]
  exact bitstep_xor.iterate 8 _ _

/-- R111: the accumulator's own low byte leaves a plain shift. -/
theorem crcByte_low_byte (c : Word) : crcByte c (c.setWidth 8) = c >>> 8 := by
  have hlow : ∀ j < 8, (c ^^^ (c.setWidth 8).setWidth 32).getLsbD j = false := by
    intro j hj
    simp [hj, show j < 32 by omega]
  have hshift : (c ^^^ (c.setWidth 8).setWidth 32) >>> 8 = c >>> 8 := by
    apply BitVec.eq_of_getLsbD_eq
    intro k _
    simp
  rw [crcByte, bitstep_iterate_of_low_zero 8 _ hlow, hshift]

/-- The 256 listed entries, each compared with its eight bit steps. -/
theorem tableEntry_eq_crcByte : ∀ n < 256, tableEntry n = crcByte 0#32 (BitVec.ofNat 8 n) := by
  decide +kernel

/-- The table index `x & 0xFF` selects the entry of the low byte of `x`. -/
theorem tableEntry_low_byte (x : Word) : tableEntry (x &&& 0xFF#32).toNat = crcByte 0#32 (x.setWidth 8) := by
  have hindex : (x &&& 0xFF#32).toNat = x.toNat % 256 := Nat.and_two_pow_sub_one_eq_mod x.toNat 8
  have hbyte : BitVec.ofNat 8 (x.toNat % 256) = x.setWidth 8 := by
    apply BitVec.eq_of_toNat_eq
    simp
  rw [hindex, tableEntry_eq_crcByte _ (Nat.mod_lt _ (by omega)), hbyte]

/-- Settles O2: the entries are compared one by one. A byte is XORed to the accumulator's own low byte, which only
shifts, and the rest, which is the table entry of the two bytes' XOR; the byte step is linear. -/
theorem tableFormEqualsBitForm : Obligations.TableFormEqualsBitForm := by
  refine ⟨by decide +kernel, tableEntry_eq_crcByte, fun c b => ?_⟩
  have hlow : (c ^^^ b.setWidth 32).setWidth 8 = c.setWidth 8 ^^^ b := by simp [BitVec.setWidth_xor]
  calc crcByte c b
    _ = crcByte (0#32 ^^^ c) ((c.setWidth 8 ^^^ b) ^^^ c.setWidth 8) := by
      rw [BitVec.zero_xor, BitVec.xor_comm _ b, BitVec.xor_assoc, BitVec.xor_self, BitVec.xor_zero]
    _ = crcByte 0#32 (c.setWidth 8 ^^^ b) ^^^ crcByte c (c.setWidth 8) := crcByte_xor _ _ _ _
    _ = tableEntry ((c ^^^ b.setWidth 32) &&& 0xFF#32).toNat ^^^ (c >>> 8) := by
      rw [tableEntry_low_byte, hlow, crcByte_low_byte]

/-! ### Fixed points of the byte step (R111) -/

/-- Zero is the function's only fixed word. -/
def OnlyZeroFixed (f : Word → Word) : Prop := ∀ x, f x = x → x = 0#32

/-- Parity of the bits of `w` below bit `n`. -/
def parityBelow (w : Word) : Nat → Bool
  | 0 => false
  | n + 1 => xor (parityBelow w n) (w.getLsbD n)

/-- In a word the bit step leaves as it is, bit 0 fixes every bit. -/
theorem getLsbD_of_bitstep_eq_self (c : Word) (h : bitstep c = c) (n : Nat) :
    c.getLsbD n = xor (c.getLsbD 0) (c.getLsbD 0 && parityBelow Config.polyRefl n) := by
  induction n with
  | zero => simp [parityBelow]
  | succ n ih =>
    have hbit := bitstep_getLsbD c n
    rw [h, ih] at hbit
    rw [parityBelow, Bool.and_xor_distrib_left, ← Bool.xor_assoc, hbit, Bool.xor_assoc, Bool.xor_self, Bool.xor_false]

/-- The polynomial has an even number of terms in its reflected form, so bit 0 of a fixed word is its bit 32, which is
0; then all its bits are. -/
theorem onlyZeroFixed_bitstep : OnlyZeroFixed bitstep := by
  intro c h
  have hparity : parityBelow Config.polyRefl 32 = false := by decide
  have hzero : c.getLsbD 0 = false := by
    have h32 := getLsbD_of_bitstep_eq_self c h 32
    simpa [hparity] using h32
  apply BitVec.eq_of_getLsbD_eq
  intro k _
  rw [getLsbD_of_bitstep_eq_self c h k, hzero]
  simp

/-- A linear function that fixes only 0 has no word of period two: `f x ^^^ x` would be fixed. -/
theorem onlyZeroFixed_twice (f : Word → Word) (hf : Function.Semiconj₂ f (· ^^^ ·) (· ^^^ ·))
    (h : OnlyZeroFixed f) : OnlyZeroFixed (f^[2]) := by
  intro x hx
  have hx : f (f x) = x := hx
  have hfixed : f (f x ^^^ x) = f x ^^^ x :=
    calc f (f x ^^^ x)
      _ = f (f x) ^^^ f x := hf _ _
      _ = f x ^^^ x := by rw [hx, BitVec.xor_comm]
  exact h x (BitVec.xor_eq_zero_iff.mp (h _ hfixed))

/-- Eight bit steps are the bit step doubled three times. -/
theorem onlyZeroFixed_bitstep_eight : OnlyZeroFixed (bitstep^[8]) := by
  have h2 := onlyZeroFixed_twice _ bitstep_xor onlyZeroFixed_bitstep
  have h4 := onlyZeroFixed_twice _ (bitstep_xor.iterate 2) h2
  exact onlyZeroFixed_twice _ (bitstep_xor.iterate 4) h4

/-- R111: a zero byte changes every accumulator but 0. -/
theorem eq_zero_of_crcByte_zero (c : Word) (h : crcByte c 0#8 = c) : c = 0#32 := by
  apply onlyZeroFixed_bitstep_eight
  simpa [crcByte] using h

/-! ### Accumulation (R104, R105) -/

/-- Regions chain as if concatenated (R105). -/
theorem accumulate_append (c : Word) (a b : Bytes) : accumulate c (a ++ b) = accumulate (accumulate c a) b :=
  List.foldl_append

/-- Settles O6: the first two clauses are the fold's own equations, the third is `accumulate_append`. -/
theorem accumulateFoldsAndChains : Obligations.AccumulateFoldsAndChains :=
  ⟨fun _ => rfl, fun _ _ _ => rfl, fun s a b => (accumulate_append s a b).symm⟩

/-! ### Shared by the four commands -/

/-- A command's stream form: OPC, IMM8, RSVD's two zero bytes, then the operands (R61, R65). -/
theorem encode_eq (i : Instr) :
    encode i = [opcodeCode (opcodeOfInstr i), immOfInstr i, 0#8, 0#8] ++ encodeOperands i := by
  rw [encode, le32_encodeWord]

/-- Two commands, the first of which answers a next state. -/
theorem execAll_pair (i j : Instr) (s t : State) (h : exec i s = .next t) : execAll [i, j] s = exec j t := by
  simp only [execAll, h, andThen]
  cases exec j t <;> rfl

/-- Raising a validity bit twice is raising it once. -/
theorem setStatusBit_setStatusBit (b : Nat) (w : Word) : setStatusBit b (setStatusBit b w) = setStatusBit b w := by
  apply BitVec.eq_of_getLsbD_eq
  intro k hk
  simp [setStatusBit_getLsbD _ _ _ hk]

/-! ### The commands (R110 to R113) -/

/-- Settles O7: a running block answers the accumulator written and ACCV raised, whatever ACC held. -/
theorem crcSeedLoadsAccumulator : Obligations.CrcSeedLoadsAccumulator := by
  refine ⟨fun seed s hs => ?_, fun seed => encode_eq _, ?_⟩
  · exact ⟨_, execCrcSeed_running s hs.1 hs.2 seed, rfl, statusRaises_setStatusBit 24 _⟩
  · exact ⟨_, rfl, rfl, by decide⟩

/-- Settles O8: the effect and the fault are the model's laws of the command; the corner cases are
`eq_zero_of_crcByte_zero` and `crcByte_low_byte`. -/
theorem crcByteFoldsOneByte : Obligations.CrcByteFoldsOneByte := by
  refine ⟨fun b s c hs h => ?_, fun b s hs h => ?_, fun b => encode_eq _, eq_zero_of_crcByte_zero, by decide,
    crcByte_low_byte, by decide, by decide⟩
  · exact execCrcByte_seeded s hs.1 hs.2 b c h
  · exact ⟨_, runCommand_readAcc_none _ s _ hs h, faultTaken_enterFault _ _ _ s⟩

/-- Two CRC.ACCUM commands fold what one folds over their data joined (R105, R112). -/
theorem execAll_crcAccum_append (a b : Bytes) (s : State) (c : Word) (hs : Ready s) (h : s.acc = some c) :
    execAll [.crcAccum a, .crcAccum b] s = exec (.crcAccum (a ++ b)) s := by
  have hfirst : exec (.crcAccum a) s = .next (s.writeAcc (accumulate c a)) :=
    execCrcAccum_seeded s hs.1 hs.2 a c h
  calc execAll [.crcAccum a, .crcAccum b] s
    _ = exec (.crcAccum b) (s.writeAcc (accumulate c a)) := execAll_pair _ _ _ _ hfirst
    _ = .next (s.writeAcc (accumulate (accumulate c a) b)) :=
      execCrcAccum_seeded (s.writeAcc (accumulate c a)) hs.1 hs.2 b _ rfl
    _ = .next (s.writeAcc (accumulate c (a ++ b))) := by rw [accumulate_append]
    _ = exec (.crcAccum (a ++ b)) s := (execCrcAccum_seeded s hs.1 hs.2 (a ++ b) c h).symm

/-- Settles O9: the effect and the fault are the model's laws of the command; `execAll_crcBytes` takes the bytes one by
one and `execAll_crcAccum_append` the two parts. -/
theorem crcAccumFoldsSequence : Obligations.CrcAccumFoldsSequence := by
  refine ⟨fun d s c hs h => ?_, fun d s hs h => ?_, fun d => encode_eq _, fun s c hs h => ?_,
    execAll_crcBytes, execAll_crcAccum_append, by decide +kernel⟩
  · exact execCrcAccum_seeded s hs.1 hs.2 d c h
  · exact ⟨_, runCommand_readAcc_none _ s _ hs h, faultTaken_enterFault _ _ _ s⟩
  · have hempty : exec (.crcAccum []) s = .next (s.writeAcc c) := execCrcAccum_seeded s hs.1 hs.2 [] c h
    rw [hempty, writeAcc_self s c h]

/-- Reading twice writes the same RESULT and raises RESV once more (R113). -/
theorem execAll_crcRead_crcRead (s : State) (c : Word) (hs : Ready s) (h : s.acc = some c) :
    execAll [.crcRead, .crcRead] s = exec .crcRead s := by
  have hfirst : exec .crcRead s = .next (s.writeResult c).setResv := execCrcRead_seeded s hs.1 hs.2 c h
  have hfault : statusFault (s.writeResult c).setResv.status = false :=
    (faultFields_setStatusBit 27 s.status (by omega)).1.trans hs.2
  have hsecond : exec .crcRead (s.writeResult c).setResv =
      .next ((s.writeResult c).setResv.writeResult c).setResv :=
    execCrcRead_seeded (s.writeResult c).setResv hs.1 hfault c h
  have hsame : ((s.writeResult c).setResv.writeResult c).setResv = (s.writeResult c).setResv := by
    simp [State.setResv, State.writeResult, setStatusBit_setStatusBit]
  rw [execAll_pair _ _ _ _ hfirst, hsecond, hsame, hfirst]

/-- Settles O10: the effect and the fault are the model's laws of the command, `execAll_crcRead_crcRead` is the second
read, and the example is `crc.accumulate` on the reset state. -/
theorem crcReadCopiesRawAccumulator : Obligations.CrcReadCopiesRawAccumulator := by
  refine ⟨fun s c hs h => ?_, fun s hs h => ?_, encode_eq _, execAll_crcRead_crcRead, ?_⟩
  · exact ⟨_, execCrcRead_seeded s hs.1 hs.2 c h, rfl, statusRaises_setStatusBit 27 _⟩
  · exact ⟨_, runCommand_readAcc_none _ s _ hs h, faultTaken_enterFault _ _ _ s⟩
  · exact ⟨_, execAll_crcAccumulate 0xFFFFFFFF#32 [0x01#8, 0x02#8, 0x03#8] State.reset (by decide),
      by decide +kernel⟩

end Sys2Proof.Proofs
end

section
/-! SUPPORT. Proofs of the statements about the header encoder (spec/41_header_encoder.md): the string field, the
header's layout and the three header commands. -/

namespace Sys2Proof.Proofs

open Sys2Proof.Machine

/-! ### The string field (R130, R131) -/

/-- An operand that fits its field is filled with zeros. -/
theorem field8_of_length_le (s : Bytes) (h : s.length ≤ 8) : field8 s = s ++ zeros (8 - s.length) := by
  rw [field8, Config.fieldLen, Nat.min_eq_left h, List.take_length]

/-- An operand that fills its field is cut, with no terminator. -/
theorem field8_of_le_length (s : Bytes) (h : 8 ≤ s.length) : field8 s = s.take 8 := by
  rw [field8, Config.fieldLen, Nat.min_eq_right h, Nat.sub_self, zeros, List.replicate_zero, List.append_nil]

/-! ### The header's layout (R139, R132) -/

/-- The five pieces of a header are its slices at the offsets of R42. -/
theorem headerBytes_slices (m v : Bytes) (n c : Word) :
    slice (headerBytes m v n c) 0 8 = field8 m ∧ slice (headerBytes m v n c) 8 16 = field8 v ∧
    slice (headerBytes m v n c) 16 48 = zeros 32 ∧ slice (headerBytes m v n c) 48 52 = le32 n ∧
    slice (headerBytes m v n c) 52 56 = le32 c := by
  rw [← List.append_nil (headerBytes m v n c)]
  exact ⟨modelField_headerBytes m v n c [], versionField_headerBytes m v n c [], unusedFields_headerBytes m v n c [],
    filesizeField_headerBytes m v n c [], crcField_headerBytes m v n c []⟩

/-- A slice inside a run of zeros is a run of zeros. -/
theorem slice_zeros (n i j : Nat) (h : j ≤ n) : slice (zeros n) i j = zeros (j - i) := by
  simp [slice, zeros, Nat.min_eq_left h]

/-- Where bytes 16..47 are zeros, each unused word reads 0 (R132). -/
theorem unusedView_of_zeros (b : Bytes) (h : slice b 16 48 = zeros 32) (k : Nat) (hk : k < 8) :
    unusedView b k = some 0#32 := by
  have hslice : slice b (16 + 4 * k) (20 + 4 * k) = zeros 4 :=
    calc slice b (16 + 4 * k) (20 + 4 * k)
      _ = slice b (16 + 4 * k) (16 + (4 * k + 4)) := by congr 1; omega
      _ = slice (slice b 16 48) (4 * k) (4 * k + 4) := (slice_slice b 16 48 _ _ (by omega)).symm
      _ = zeros (4 * k + 4 - 4 * k) := by rw [h, slice_zeros _ _ _ (by omega)]
      _ = zeros 4 := by rw [Nat.add_sub_cancel_left]
  rw [unusedView, hslice]
  rfl

/-- Settles O11: the operand is filled or cut, and the two fields are the first two slices of the header. -/
theorem field8TruncatesOrFills : Obligations.Field8TruncatesOrFills := by
  refine ⟨fun s => ⟨field8_length s, fun h => ?_, fun h => ?_, fun h => ?_⟩, rfl, fun m v n c => ?_⟩
  · exact field8_of_length_le s h.le
  · rw [field8_of_le_length s h.ge, ← h, List.take_length]
  · exact field8_of_le_length s h.le
  · obtain ⟨hmodel, hversion, -⟩ := headerBytes_slices m v n c
    exact ⟨hmodel, hversion⟩

/-- Settles O12: each view reads its slice of `headerBytes_slices`, and `from_le32` undoes `le32`. -/
theorem headerBytesLayout : Obligations.HeaderBytesLayout := by
  intro m v n c
  obtain ⟨hmodel, hversion, hunused, hsize, hcrc⟩ := headerBytes_slices m v n c
  have hfilesize : filesizeView (headerBytes m v n c) = some n := (congrArg fromLe32 hsize).trans (fromLe32_le32 n)
  have hcrcView : crcView (headerBytes m v n c) = some c := (congrArg fromLe32 hcrc).trans (fromLe32_le32 c)
  exact ⟨headerBytes_length m v n c, rfl, hmodel, hversion, hunused, unusedView_of_zeros _ hunused,
    hfilesize, hcrcView⟩

/-! ### The commands (R136, R137, R138) -/

/-- A failing identifier check faults HDR.ENCODE before it reads or writes any register (R136, R203). -/
theorem exec_hdrEncode_failing (m v : Bytes) (n : Word) (s : State) (c : Cause) (a : BitVec 2) (hs : Ready s)
    (h : checkIdentifiers m v = some (c, a)) :
    exec (.hdrEncode m v n) s = .next (s.enterFault c 0x10#8 a) := by
  rw [exec, execHdrEncode, h]
  exact runCommand_checked_some _ s _ c a hs

/-- Settles O13: the effect is the model's law of the command, and the identifiers are checked in operand order. -/
theorem hdrEncodeBuildsHeader : Obligations.HdrEncodeBuildsHeader := by
  refine ⟨fun m v n s hs hm hv => ?_, fun m v n s hs hm => ?_, fun m v n s hs hm hv => ?_, fun m v n => ?_,
    by decide⟩
  · exact ⟨_, _, execHdrEncode_passing s hs.1 hs.2 m v n hm hv, rfl, rfl, statusRaises_setStatusBit 25 _⟩
  · have hcheck : checkIdentifiers m v = some (.invalidArgument, 1#2) := by
      rw [checkIdentifiers_eq, if_pos (not_not.mp hm)]
    exact ⟨_, exec_hdrEncode_failing m v n s _ _ hs hcheck, faultTaken_enterFault _ _ _ s⟩
  · have hcheck : checkIdentifiers m v = some (.invalidArgument, 2#2) := by
      rw [checkIdentifiers_eq, if_neg hm, if_pos (not_not.mp hv)]
    exact ⟨_, exec_hdrEncode_failing m v n s _ _ hs hcheck, faultTaken_enterFault _ _ _ s⟩
  · simp only [encode_eq, encodeOperands, encodeBytes, List.append_assoc]
    rfl

/-- Settles O14: the effect and the fault are the model's laws of the command; HDR carries its size. -/
theorem hdrSerializeCopiesHeader : Obligations.HdrSerializeCopiesHeader := by
  refine ⟨fun s h hs hh => ?_, fun s hs hh => ?_, encode_eq _⟩
  · exact ⟨_, execHdrSerialize_written s hs.1 hs.2 h hh, rfl, h.size, statusRaises_setStatusBit 26 _⟩
  · exact ⟨_, runCommand_readHdr_none _ s _ hs hh, faultTaken_enterFault _ _ _ s⟩

/-- The crc field ends the header, so stamping it leaves bytes 0..51 and the new value (R138). -/
theorem setCrcField_bytes (h : Header) (v : Word) : (setCrcField h v).bytes = h.bytes.take 52 ++ le32 v := by
  have hend : h.bytes.drop (52 + (le32 v).length) = [] := List.drop_eq_nil_of_le (by simp [h.size])
  calc (setCrcField h v).bytes
    _ = h.bytes.take 52 ++ le32 v ++ h.bytes.drop (52 + (le32 v).length) := rfl
    _ = h.bytes.take 52 ++ le32 v := by rw [hend, List.append_nil]

/-- Settles O15: the effect and the fault are the model's laws of the command, `setCrcField_bytes` says what is kept
and `setCrcField_makeHeader` what an encoded header becomes. -/
theorem hdrSetcrcWritesCrcField : Obligations.HdrSetcrcWritesCrcField := by
  refine ⟨fun value s h hs hh => ?_, fun value s hs hh => ?_, fun value => encode_eq _, fun value m v n => ?_,
    by decide⟩
  · exact ⟨_, execHdrSetcrc_written s hs.1 hs.2 value h hh, setCrcField_bytes h value⟩
  · exact ⟨_, runCommand_readHdr_none _ s _ hs hh, faultTaken_enterFault _ _ _ s⟩
  · rw [setCrcField_makeHeader]
    rfl

end Sys2Proof.Proofs
end

section
/-! SUPPORT. Proofs of the statements about the image builder (spec/42_image_builder.md): IMG.BUILD's effect and its
faults, the image's regions, and the primitive sequence that does the same. -/

namespace Sys2Proof.Proofs

open Sys2Proof.Machine

/-! ### A running block's command, by the tables of R201 and R203 -/

/-- Where the tables name a fault, a running block's command takes it and writes nothing else (R205). -/
theorem exec_takes_expectedFault (i : Instr) (s : State) (c : Cause) (a : BitVec 2) (hs : Ready s)
    (h : expectedFault i s = some (c, a)) : ∃ t, exec i s = .next t ∧ FaultTaken c (opcOf i) a s t := by
  obtain ⟨c', a', he, hx⟩ | ⟨he, -⟩ := exec_ready i s hs
  · obtain ⟨rfl, rfl⟩ : c = c' ∧ a = a' := by simpa [h] using he
    exact ⟨_, hx, faultTaken_enterFault _ _ _ s⟩
  · simp [h] at he

/-- Where the tables name no fault, a running block's command completes, and the block runs on. -/
theorem exec_completes (i : Instr) (s : State) (hs : Ready s) (h : expectedFault i s = none) :
    ∃ t, exec i s = .next t ∧ Ready t ∧ Completed i s t := by
  obtain ⟨c, a, he, -⟩ | ⟨-, t, hx, hc⟩ := exec_ready i s hs
  · simp [h] at he
  · obtain ⟨hphase, -, -⟩ := completed_keeps i s t hc
    exact ⟨t, hx, ⟨hphase.trans hs.1, (completed_fault i s t hc).trans hs.2⟩, hc⟩

/-- A command with no other after it. -/
theorem execAll_singleton (i : Instr) (s : State) : execAll [i] s = exec i s := by
  rw [execAll]
  cases exec i s <;> rfl

/-- RESV after validity bits were raised (R27). -/
theorem statusResv_of_statusRaises (ks : List Nat) (w w' : Word) (h : StatusRaises ks w w') :
    statusResv w' = (decide (27 ∈ ks) || statusResv w) :=
  h 27 (by omega)

theorem statusResv_setResv (s : State) : statusResv s.setResv.status = true :=
  statusResv_of_statusRaises [27] _ _ (statusRaises_setStatusBit 27 s.status)

theorem statusResv_setOutv (s : State) : statusResv s.setOutv.status = statusResv s.status :=
  statusResv_of_statusRaises [26] _ _ (statusRaises_setStatusBit 26 s.status)

/-! ### The command (R160, R161, R164) -/

/-- Zero-free identifiers leave IMG.BUILD the fault of an overlong payload only (R164). -/
theorem expectedFault_imgBuild_overlong (m v p : Bytes) (s : State) (hm : ZeroFree m) (hv : ZeroFree v)
    (hl : 2 ^ 32 ≤ p.length) : expectedFault (.imgBuild m v p) s = some (.lengthOverflow, 3#2) := by
  rw [expectedFault, if_neg hm, if_neg hv, if_pos hl]

/-- Settles O16: the effect is the model's law of the command, the header's and the payload's accumulation chain, and
the operand checks are taken in the order of R203. -/
theorem imgBuildWritesWholeImage : Obligations.ImgBuildWritesWholeImage := by
  refine ⟨fun m v p s hs hm hv hl => ?_, fun m v p s hs hm => ?_, fun m v p s hs hm hv => ?_,
    fun m v p s hs hm hv hl => ?_, fun m v p => ?_, by decide +kernel, by decide +kernel⟩
  · exact ⟨_, imageHeader m v p, imageCrc m v p, execImgBuild_passing s hs.1 hs.2 m v p hm hv hl, rfl,
      (accumulate_append _ _ _).symm, rfl, rfl, completed_status (.imgBuild m v p) s _ ⟨hl, rfl⟩⟩
  · have hfault : expectedFault (.imgBuild m v p) s = some (.invalidArgument, 1#2) := by
      rw [expectedFault, if_pos (not_not.mp hm)]
    exact exec_takes_expectedFault _ s _ _ hs hfault
  · have hfault : expectedFault (.imgBuild m v p) s = some (.invalidArgument, 2#2) := by
      rw [expectedFault, if_neg hm, if_pos (not_not.mp hv)]
    exact exec_takes_expectedFault _ s _ _ hs hfault
  · exact exec_takes_expectedFault _ s _ _ hs (expectedFault_imgBuild_overlong m v p s hm hv hl)
  · simp only [encode_eq, encodeOperands, encodeBytes, List.append_assoc]
    rfl

/-- Settles O21: the outputs the model's law of the command writes do not mention the state before it. -/
theorem buildDependsOnOperandsOnly : Obligations.BuildDependsOnOperandsOnly := by
  intro m v p s1 s2 hs1 hs2 hm hv hl
  exact ⟨_, _, execImgBuild_passing s1 hs1.1 hs1.2 m v p hm hv hl, execImgBuild_passing s2 hs2.1 hs2.2 m v p hm hv hl,
    rfl, rfl, rfl, rfl⟩

/-- Settles O22: with nothing delivered the step runs the command the host issues, which takes its fault; the
length of an overlong payload does not fit the stream form. -/
theorem overlongPayloadFaults : Obligations.OverlongPayloadFaults := by
  refine ⟨fun m v p s moves hs hm hv hl hstream hhost => ?_, fun m v p hl => ?_⟩
  · rw [step_issue s _ moves hstream hhost]
    exact exec_takes_expectedFault _ { s with host := moves } _ _ hs (expectedFault_imgBuild_overlong m v p _ hm hv hl)
  · have hfit : bytesFit p = false := by
      rw [← Bool.not_eq_true, bytesFit_iff]
      omega
    rw [wellFormed, hfit, Bool.and_false]

/-! ### The image's regions (R162, R163, R165, R169) -/

/-- The length word reads back as the length when it fits (R133, R163). -/
theorem lengthWord_toNat (p : Bytes) (hl : p.length < 2 ^ 32) : (lengthWord p).toNat = p.length :=
  (BitVec.toNat_ofNat _ _).trans (Nat.mod_eq_of_lt hl)

/-- Header, padding and payload add up (R169). -/
theorem imageBytes_length (m v p : Bytes) : (imageBytes m v p).length = 2048 + p.length := by
  simp [imageBytes_eq, headerBytes_length]
  omega

/-- The padding follows the 56 bytes of the header (R165). -/
theorem padding_imageBytes (m v p : Bytes) : slice (imageBytes m v p) 56 2048 = zeros 1992 := by
  rw [imageBytes_eq]
  exact slice_append_middle _ _ _ _ _ (by simp [headerBytes_length]) (by simp [headerBytes_length])

/-- The payload ends the image (R165). -/
theorem payload_imageBytes (m v p : Bytes) : slice (imageBytes m v p) 2048 (2048 + p.length) = p := by
  have hpayload := slice_append_middle ((imageHeader m v p).bytes ++ zeros 1992) p [] 2048 (2048 + p.length)
    (by simp [(imageHeader m v p).size]) (by simp [(imageHeader m v p).size])
  rwa [List.append_nil] at hpayload

/-- Settles O17: the image is its header, the padding and the payload, and the header's regions are those of the
header law; the filesize reads back because the length fits. -/
theorem imageRegionsAreAsMapped : Obligations.ImageRegionsAreAsMapped := by
  intro m v p s hs hm hv hl
  refine ⟨_, imageBytes m v p, execImgBuild_passing s hs.1 hs.2 m v p hm hv hl, rfl, imageBytes_length m v p, ?_, ?_,
    ?_, ⟨lengthWord p, ?_, lengthWord_toNat p hl⟩, padding_imageBytes m v p, payload_imageBytes m v p⟩
  all_goals rw [imageBytes_eq]
  · exact modelField_headerBytes _ _ _ _ _
  · exact versionField_headerBytes _ _ _ _ _
  · exact unusedFields_headerBytes _ _ _ _ _
  · rw [filesizeField_headerBytes, fromLe32_le32]

/-! ### The primitive sequence (R167) -/

/-- The sequence of R167 runs from every running block; its HDR and OUT end as the stamped header, its ACC and RESULT
as the image's checksum. -/
theorem primitiveBuild_ends (m v p : Bytes) (s : State) (hs : Ready s) (hm : ZeroFree m) (hv : ZeroFree v) :
    ∃ u, PrimitiveBuild m v p s u ∧ u.hdr = some (imageHeader m v p) ∧ u.acc = some (imageCrc m v p) ∧
      u.out = some (imageHeader m v p).bytes ∧ u.result = some (imageCrc m v p) ∧ statusResv u.status = true := by
  have hencode : expectedFault (.hdrEncode m v (lengthWord p)) s = none := by
    rw [expectedFault, if_neg hm, if_neg hv]
  -- HDR with its crc field zero, and the host's copy of it in OUT
  obtain ⟨s1, run1, ready1, rfl⟩ := exec_completes _ s hs hencode
  obtain ⟨s2, run2, ready2, h0, hdr2, rfl⟩ := exec_completes .hdrSerialize _ ready1 rfl
  cases hdr2
  -- the checksum over that copy, then over the payload, and the host's copy of it in RESULT
  obtain ⟨s3, run3, ready3, rfl⟩ := exec_completes (.crcSeed Config.crcInit) _ ready2 rfl
  obtain ⟨s4, run4, ready4, c3, acc3, rfl⟩ :=
    exec_completes (.crcAccum (headerBytes m v (lengthWord p) 0#32)) _ ready3 rfl
  cases acc3
  obtain ⟨s5, run5, ready5, c4, acc4, rfl⟩ := exec_completes (.crcAccum p) _ ready4 rfl
  cases acc4
  obtain ⟨s6, run6, ready6, c5, acc5, rfl⟩ := exec_completes .crcRead _ ready5 rfl
  cases acc5
  -- the stamped header
  obtain ⟨s7, run7, ready7, h6, hdr6, rfl⟩ := exec_completes (.hdrSetcrc (imageCrc m v p)) _ ready6 rfl
  cases hdr6
  obtain ⟨u, run8, -, h7, hdr7, rfl⟩ := exec_completes .hdrSerialize _ ready7 rfl
  cases hdr7
  have hstamped : setCrcField (makeHeader m v (lengthWord p) 0#32) (imageCrc m v p) = imageHeader m v p :=
    setCrcField_makeHeader _ _ _ _ _
  exact ⟨_, ⟨_, _, _, _, _, _, _, _, _, run1, run2, rfl, (execAll_singleton _ _).trans run3, run4, run5, run6, rfl,
    run7, run8⟩, congrArg some hstamped, rfl, congrArg (some ∘ Header.bytes) hstamped, rfl,
    (statusResv_setOutv _).trans (statusResv_setResv _)⟩

/-- Settles O20: both runs leave the stamped header and the image's checksum of `primitiveBuild_ends`; the bits
IMG.BUILD raises do not hold RESV. -/
theorem buildEqualsPrimitiveSequence : Obligations.BuildEqualsPrimitiveSequence := by
  intro m v p s hs hm hv hl
  obtain ⟨u, hrun, hhdr, hacc, hout, hresult, hresv⟩ := primitiveBuild_ends m v p s hs hm hv
  have hraised := completed_status (.imgBuild m v p) s _ ⟨hl, rfl⟩
  exact ⟨_, u, (imageHeader m v p).bytes, execImgBuild_passing s hs.1 hs.2 m v p hm hv hl, hrun, hhdr.symm, hacc.symm,
    hout, rfl, rfl, statusResv_of_statusRaises _ _ _ hraised, hresult.trans hacc.symm, by rw [hacc]; rfl, hresv⟩

end Sys2Proof.Proofs
end

section
/-! SUPPORT. Proofs of the statements about faults, the halted block and reset (spec/60_exceptions.md). -/

namespace Sys2Proof.Proofs

open Sys2Proof.Machine

/-! ### Faults of a running block (R201, R203, R205) -/

/-- A halted block is not a running one. -/
theorem not_ready_of_halted (s : State) (hs : Halted s) : ¬ Ready s :=
  fun hready => Bool.false_ne_true (hready.2.symm.trans hs.2)

/-- A step of a running block on an ILLEGAL word consumes the word and takes its fault (R67, R203). -/
theorem step_takes_illegalCommand (s : State) (w : Word) (rest : Bytes) (hs : Ready s)
    (h : decode s.stream = .illegal w rest) :
    ∃ t, step s = .next t ∧ FaultTaken .illegalCommand (opcField w) 0#2 (s.consume rest) t := by
  rw [step_illegal s w rest h, illegalCommand_ready w (s.consume rest) hs]
  exact ⟨_, rfl, faultTaken_enterFault _ _ _ _⟩

/-- Settles O23: the tables give a running block's command one fault or none, and `exec_takes_expectedFault` and
`exec_completes` are the two cases; a 0x00 in the model operand comes first in the order. -/
theorem faultsFollowTableAndPriority : Obligations.FaultsFollowTableAndPriority := by
  refine ⟨step_takes_illegalCommand, fun i s hs => ?_, fun p s hs => ?_⟩
  · cases hfault : expectedFault i s with
    | none =>
      obtain ⟨t, hrun, hready, -⟩ := exec_completes i s hs hfault
      exact ⟨t, hrun, fun _ => hready.2, nofun⟩
    | some fault =>
      obtain ⟨t, hrun, htaken⟩ := exec_takes_expectedFault i s fault.1 fault.2 hs hfault
      refine ⟨t, hrun, nofun, ?_⟩
      rintro c a ⟨⟩
      exact htaken
  · have hfault : expectedFault (.imgBuild [0#8] [0#8] p) s = some (.invalidArgument, 1#2) := by
      rw [expectedFault, if_pos (List.mem_singleton_self _)]
    exact exec_takes_expectedFault _ s _ _ hs hfault

/-- Settles O24: a command that completed would have kept FAULT = 0, so one that ends with FAULT = 1 took the fault of
its row of R201's table, and fault entry writes only the record. -/
theorem faultEntryWritesOnlyStatus : Obligations.FaultEntryWritesOnlyStatus := by
  refine ⟨faultTaken_enterFault, fun i s t hs hrun hfault => ?_⟩
  obtain ⟨hhalted, -⟩ | ⟨-, c, a, he, rfl⟩ | ⟨-, -, hcompleted⟩ := exec_next i s t hrun
  · exact absurd hs (not_ready_of_halted s hhalted)
  · exact ⟨c, a, (expectedFault_row i s c a he).1, faultTaken_enterFault _ _ _ s⟩
  · rw [completed_fault i s t hcompleted, hs.2] at hfault
    cases hfault

/-! ### The halted block (R206, R207) -/

/-- An ILLEGAL word has no effect on a halted block, and so cannot overwrite the fault record (R206). -/
theorem illegalCommand_halted (w : Word) (s : State) (hs : Halted s) : illegalCommand w s = .next s :=
  runCommand_halted s _ hs.1 hs.2

/-- Settles O25: consuming a command's bytes leaves the block halted, and a halted block's command and ILLEGAL word
answer the state they find. -/
theorem haltedBlockConsumesWithoutEffect : Obligations.HaltedBlockConsumesWithoutEffect := by
  refine fun s hs => ⟨fun i => exec_halted i s hs, fun i rest hd => ?_, fun w rest hd => ?_, not_ready_of_halted s hs⟩
  · exact (step_command s i rest hd).trans (exec_halted i (s.consume rest) hs)
  · exact (step_illegal s w rest hd).trans (illegalCommand_halted w (s.consume rest) hs)

/-- Settles O26: of the five things a step can do, a command in either form and an ILLEGAL word answer the halted state
they find, a delivery writes no register, and only the reset is left. -/
theorem onlyResetClearsFault : Obligations.OnlyResetClearsFault := by
  intro s t hs hstep
  obtain ⟨i, rest, -, hrun⟩ | ⟨w, rest, -, hrun⟩ | ⟨bs, moves, -, rfl⟩ | ⟨moves, hhost, -, rfl⟩ |
    ⟨i, moves, -, -, hrun⟩ := step_next s t hstep
  · rw [exec_halted i (s.consume rest) hs] at hrun
    cases hrun
    exact .inl ⟨rfl, hs.1⟩
  · rw [illegalCommand_halted w (s.consume rest) hs] at hrun
    cases hrun
    exact .inl ⟨rfl, hs.1⟩
  · exact .inl ⟨rfl, hs.1⟩
  · exact .inr ⟨moves, hhost, rfl⟩
  · rw [exec_halted i { s with host := moves } hs] at hrun
    cases hrun
    exact .inl ⟨rfl, hs.1⟩

end Sys2Proof.Proofs
end

section
/-! SUPPORT. Proofs of the statements about the verification of an image (spec/42_image_builder.md section 4) and about
the host table (spec/60_exceptions.md section 5). -/

namespace Sys2Proof.Proofs

open Sys2Proof.Machine

/-! ### The corrected verification (R166) -/

/-- Up to its crc field a header does not depend on the stored crc, so with zeros in that field's place it is the header
the crc was taken over. -/
theorem headerBytes_crcZeroed (m v : Bytes) (n c : Word) (rest : Bytes) :
    slice (headerBytes m v n c ++ rest) 0 52 ++ zeros 4 = headerBytes m v n 0#32 := by
  have hprefix : slice (headerBytes m v n c ++ rest) 0 52 = field8 m ++ field8 v ++ zeros 32 ++ le32 n := by
    rw [show headerBytes m v n c ++ rest =
      [] ++ ((field8 m ++ field8 v ++ zeros 32 ++ le32 n) ++ (le32 c ++ rest)) by simp [headerBytes]]
    exact slice_append_middle _ _ _ _ _ rfl (by simp [field8_length])
  rw [hprefix]
  rfl

/-- The payload is what follows the first 2048 bytes. -/
theorem drop_imageBytes (m v p : Bytes) : (imageBytes m v p).drop 2048 = p := by
  rw [imageBytes, List.drop_left']
  simp [(imageHeader m v p).size]

/-- The image of operands whose payload length fits passes the corrected verification (R166). -/
theorem imageVerifies_imageBytes (m v p : Bytes) (hl : p.length < 2 ^ 32) : ImageVerifies (imageBytes m v p) := by
  have hcrc : slice (imageBytes m v p) 52 56 = le32 (imageCrc m v p) := by
    rw [imageBytes_eq, crcField_headerBytes]
  have hcovered : slice (imageBytes m v p) 0 52 ++ zeros 4 = headerBytes m v (lengthWord p) 0#32 := by
    rw [imageBytes_eq, headerBytes_crcZeroed]
  have hsize : slice (imageBytes m v p) 48 52 = le32 (lengthWord p) := by
    rw [imageBytes_eq, filesizeField_headerBytes]
  refine ⟨?_, ⟨lengthWord p, by rw [hsize, fromLe32_le32], ?_⟩, padding_imageBytes m v p⟩
  · rw [hcrc, fromLe32_le32, hcovered, drop_imageBytes, accumulate_append]
    rfl
  · rw [lengthWord_toNat p hl, imageBytes_length, Nat.add_sub_cancel_left]

/-- Settles O18: IMG.BUILD's OUT is the image of its operands, and that verifies. -/
theorem builtImageVerifies : Obligations.BuiltImageVerifies :=
  fun m v p s hs hm hv hl =>
    ⟨_, imageBytes m v p, execImgBuild_passing s hs.1 hs.2 m v p hm hv hl, rfl, imageVerifies_imageBytes m v p hl⟩

/-! ### The worked example with the source's slice (90_conflicts.md C3) -/

/-! ### The host table (R210, R211) -/

/-- A call with four arguments and a readable input ends as R211's last three rows say of IMG.BUILD after reset. -/
theorem runTool_of_input (c : ToolCall) (m v f g p : Bytes) (ha : c.args = [m, v, f, g]) (hi : c.input = some p) :
    runTool c = finishTool c.outputWritable (buildMoves m v p) (exec (.imgBuild m v p) State.reset) := by
  obtain ⟨args, input, w⟩ := c
  cases ha
  cases hi
  rfl

/-- A call with four arguments and an unreadable input ends before anything is issued (R210). -/
theorem runTool_of_no_input (c : ToolCall) (ha : c.args.length = 4) (hi : c.input = none) :
    runTool c = some ⟨1, .notWritten, []⟩ := by
  obtain ⟨m, v, f, g, hargs⟩ := List.length_eq_four.mp ha
  obtain ⟨args, input, w⟩ := c
  cases hargs
  cases hi
  rfl

/-- A call with any other number of arguments is a usage error. -/
theorem runTool_of_wrong_count (c : ToolCall) (ha : c.args.length ≠ 4) : runTool c = some ⟨1, .notWritten, []⟩ := by
  obtain ⟨args, input, w⟩ := c
  match args, ha with
  | [], _ => rfl
  | [_], _ => rfl
  | [_, _], _ => rfl
  | [_, _, _], _ => rfl
  | [_, _, _, _], ha => exact absurd rfl ha
  | _ :: _ :: _ :: _ :: _ :: _, _ => rfl

theorem finishTool_halted (w : Bool) (issued : List HostMove) (t : State) (hf : statusFault t.status = true) :
    finishTool w issued (.next t) = some ⟨1, .notWritten, issued⟩ :=
  if_pos hf

theorem finishTool_running (w : Bool) (issued : List HostMove) (t : State) (b : Bytes)
    (hf : statusFault t.status = false) (ho : t.out = some b) :
    finishTool w issued (.next t) =
      some (if w then ⟨0, .holds b, issued⟩ else ⟨2, .unspecified, issued⟩) := by
  simp [finishTool, hf, ho]

/-- The tables give IMG.BUILD's failing operands CAUSE 1 or 2 (R201). -/
theorem expectedFault_imgBuild_failing (m v p : Bytes) (s : State)
    (h : ¬ ZeroFree m ∨ ¬ ZeroFree v ∨ 2 ^ 32 ≤ p.length) :
    ∃ c a, expectedFault (.imgBuild m v p) s = some (c, a) ∧ (causeCode c = 1#4 ∨ causeCode c = 2#4) := by
  by_cases hm : ZeroFree m
  · by_cases hv : ZeroFree v
    · have hl : 2 ^ 32 ≤ p.length := by simpa [hm, hv] using h
      exact ⟨_, _, expectedFault_imgBuild_overlong m v p s hm hv hl, .inr rfl⟩
    · exact ⟨.invalidArgument, 2#2, by rw [expectedFault, if_neg hm, if_pos (not_not.mp hv)], .inl rfl⟩
  · exact ⟨.invalidArgument, 1#2, by rw [expectedFault, if_pos (not_not.mp hm)], .inl rfl⟩

/-- Settles O51: the rows are told apart by the argument count, the input and the fault the tables give IMG.BUILD
after reset; where they give none, OUT is the image of the operands. -/
theorem hostTableOutcomes : Obligations.HostTableOutcomes := by
  have hready : Ready State.reset := ⟨rfl, rfl⟩
  refine ⟨runTool_of_wrong_count, runTool_of_no_input, fun c m v f g p ha hi => ⟨fun hbad => ?_, fun hm hv hl => ?_⟩⟩
  · obtain ⟨cause, a, he, hcause⟩ := expectedFault_imgBuild_failing m v p State.reset hbad
    obtain ⟨t, hrun, -, hfault, hcode, -⟩ := exec_takes_expectedFault _ State.reset cause a hready he
    refine ⟨t, hrun, hfault, by rwa [hcode], ?_⟩
    rw [runTool_of_input c m v f g p ha hi, hrun, finishTool_halted _ _ _ hfault]
    rfl
  · have hnone : expectedFault (.imgBuild m v p) State.reset = none := by
      rw [expectedFault, if_neg hm, if_neg hv, if_neg (by omega)]
    obtain ⟨t, hrun, ⟨-, hfault⟩, -, rfl⟩ := exec_completes _ State.reset hready hnone
    refine ⟨_, imageBytes m v p, hrun, hfault, rfl, rfl, imageBytes_length m v p, imageVerifies_imageBytes m v p hl,
      fun hw => ?_, fun hw => ?_⟩
    all_goals
      rw [runTool_of_input c m v f g p ha hi, hrun, finishTool_running _ _ _ _ hfault rfl, hw]
      rfl

end Sys2Proof.Proofs
end

section
/-! SUPPORT. Proofs of the statements about every command and every step: who writes and who reads the registers
(spec/10_state.md), and the invariants of the state. -/

namespace Sys2Proof.Proofs

open Sys2Proof.Machine

/-! ### What a completed command does to each register -/

/-- A completed command's next state is fixed by the state it ran in. -/
theorem completed_unique (i : Instr) (s t u : State) (ht : Completed i s t) (hu : Completed i s u) : t = u := by
  cases i with
  | crcSeed | hdrEncode => exact ht.trans hu.symm
  | crcByte | crcAccum | crcRead | hdrSerialize | hdrSetcrc =>
    obtain ⟨c, hc, rfl⟩ := ht
    obtain ⟨d, hd, rfl⟩ := hu
    cases hc.symm.trans hd
    rfl
  | imgBuild => exact ht.2.trans hu.2.symm

/-- A running block's command that the tables give no fault answers the state of its completed effect. -/
theorem exec_of_completed (i : Instr) (s t : State) (hs : Ready s) (h : expectedFault i s = none)
    (ht : Completed i s t) : exec i s = .next t := by
  obtain ⟨u, hrun, -, hu⟩ := exec_completes i s hs h
  rw [hrun, completed_unique i s t u ht hu]

/-- Where the tables name a fault, a running block's command answers fault entry. -/
theorem exec_of_expectedFault (i : Instr) (s : State) (c : Cause) (a : BitVec 2) (hs : Ready s)
    (h : expectedFault i s = some (c, a)) : exec i s = .next (s.enterFault c (opcOf i) a) := by
  obtain ⟨c', a', he, hx⟩ | ⟨he, -⟩ := exec_ready i s hs
  · obtain ⟨rfl, rfl⟩ : c = c' ∧ a = a' := by simpa [h] using he
    exact hx
  · simp [h] at he

/-- The writers of each register among the completed commands (R21, R24, R25, R26). -/
theorem completed_writers (i : Instr) (s t : State) (h : Completed i s t) :
    (t.acc ≠ s.acc → opcodeOfInstr i ∈ [Opcode.crcSeed, .crcByte, .crcAccum, .imgBuild]) ∧
    (t.hdr ≠ s.hdr → opcodeOfInstr i ∈ [Opcode.hdrEncode, .hdrSetcrc, .imgBuild]) ∧
    (t.out ≠ s.out → opcodeOfInstr i ∈ [Opcode.hdrSerialize, .imgBuild]) ∧
    (t.result ≠ s.result → opcodeOfInstr i = Opcode.crcRead) := by
  cases i with
  | crcSeed | hdrEncode => cases h; simp [opcodeOfInstr]
  | crcByte | crcAccum | crcRead | hdrSerialize | hdrSetcrc => obtain ⟨_, -, rfl⟩ := h; simp [opcodeOfInstr]
  | imgBuild => obtain ⟨-, rfl⟩ := h; simp [opcodeOfInstr]

/-- A completed command leaves a register with a value exactly when it raised the register's validity bit or the
register held a value (R27, R29). -/
theorem completed_isSome (i : Instr) (s t : State) (h : Completed i s t) :
    t.acc.isSome = (decide (24 ∈ raisedBits i) || s.acc.isSome) ∧
    t.hdr.isSome = (decide (25 ∈ raisedBits i) || s.hdr.isSome) ∧
    t.out.isSome = (decide (26 ∈ raisedBits i) || s.out.isSome) ∧
    t.result.isSome = (decide (27 ∈ raisedBits i) || s.result.isSome) := by
  cases i with
  | crcSeed | hdrEncode => cases h; simp [raisedBits]
  | crcByte | crcAccum | hdrSetcrc => obtain ⟨_, hread, rfl⟩ := h; simp [raisedBits, hread]
  | crcRead | hdrSerialize => obtain ⟨_, -, rfl⟩ := h; simp [raisedBits]
  | imgBuild => obtain ⟨-, rfl⟩ := h; simp [raisedBits]

/-- Settles O30: a halted block and a fault write no register but STATUS, and the completed commands write their own. -/
theorem registersHaveOnlyTheirWriters : Obligations.RegistersHaveOnlyTheirWriters := by
  intro i s t hrun
  obtain ⟨-, rfl⟩ | ⟨-, c, a, -, rfl⟩ | ⟨-, -, hcompleted⟩ := exec_next i s t hrun
  · simp
  · simp
  · exact completed_writers i s t hcompleted

/-! ### What a command does not read (R25, R26, R30, R54) -/

/-- The state with other contents in OUT and RESULT. -/
def withOutputs (o : Option Bytes) (r : Option Word) (s : State) : State := { s with out := o, result := r }

/-- The state with another stream and other moves of the host to come. -/
def withPending (bs : Bytes) (moves : List HostMove) (s : State) : State := { s with stream := bs, host := moves }

/-- The fault tables name neither OUT nor RESULT, neither the stream nor the host's moves. -/
theorem expectedFault_congr (i : Instr) (s s' : State) (hacc : s'.acc = s.acc) (hhdr : s'.hdr = s.hdr) :
    expectedFault i s' = expectedFault i s := by
  cases i <;> simp only [expectedFault, hacc, hhdr]

/-- A completed effect does not read OUT and RESULT: each is written alike or kept. -/
theorem completed_withOutputs (i : Instr) (s t : State) (o : Option Bytes) (r : Option Word) (h : Completed i s t) :
    ∃ o' r', Completed i (withOutputs o r s) (withOutputs o' r' t) ∧
      (o' = t.out ∨ (t.out = s.out ∧ o' = o)) ∧ (r' = t.result ∨ (t.result = s.result ∧ r' = r)) := by
  cases i with
  | crcSeed | hdrEncode => cases h; exact ⟨o, r, rfl, .inr ⟨rfl, rfl⟩, .inr ⟨rfl, rfl⟩⟩
  | crcByte | crcAccum | hdrSetcrc =>
    obtain ⟨x, hx, rfl⟩ := h
    exact ⟨o, r, ⟨x, hx, rfl⟩, .inr ⟨rfl, rfl⟩, .inr ⟨rfl, rfl⟩⟩
  | crcRead => obtain ⟨c, hc, rfl⟩ := h; exact ⟨o, some c, ⟨c, hc, rfl⟩, .inr ⟨rfl, rfl⟩, .inl rfl⟩
  | hdrSerialize => obtain ⟨d, hd, rfl⟩ := h; exact ⟨some d.bytes, r, ⟨d, hd, rfl⟩, .inl rfl, .inr ⟨rfl, rfl⟩⟩
  | imgBuild m v p =>
    obtain ⟨hl, rfl⟩ := h
    exact ⟨some (imageBytes m v p), r, ⟨hl, rfl⟩, .inl rfl, .inr ⟨rfl, rfl⟩⟩

/-- Settles O31: the halted block, the fault tables and the completed effects do not read OUT and RESULT. -/
theorem outAndResultAreNeverRead : Obligations.OutAndResultAreNeverRead := by
  intro i s t o r hrun
  obtain ⟨hs, rfl⟩ | ⟨hs, c, a, he, rfl⟩ | ⟨hs, he, hcompleted⟩ := exec_next i s t hrun
  · exact ⟨_, exec_halted i (withOutputs o r t) hs, rfl, rfl, rfl, rfl, rfl, rfl, .inr ⟨rfl, rfl⟩, .inr ⟨rfl, rfl⟩⟩
  · have he' : expectedFault i (withOutputs o r s) = some (c, a) := (expectedFault_congr i s _ rfl rfl).trans he
    exact ⟨_, exec_of_expectedFault i (withOutputs o r s) c a hs he', rfl, rfl, rfl, rfl, rfl, rfl,
      .inr ⟨rfl, rfl⟩, .inr ⟨rfl, rfl⟩⟩
  · have he' : expectedFault i (withOutputs o r s) = none := (expectedFault_congr i s _ rfl rfl).trans he
    obtain ⟨o', r', hcompleted', hout, hresult⟩ := completed_withOutputs i s t o r hcompleted
    exact ⟨_, exec_of_completed i (withOutputs o r s) _ hs he' hcompleted', rfl, rfl, rfl, rfl, rfl, rfl, hout, hresult⟩

/-- A completed effect neither reads nor writes the stream and the host's moves. -/
theorem completed_withPending (i : Instr) (s t : State) (bs : Bytes) (moves : List HostMove) (h : Completed i s t) :
    Completed i (withPending bs moves s) (withPending bs moves t) := by
  cases i with
  | crcSeed | hdrEncode => cases h; rfl
  | crcByte | crcAccum | crcRead | hdrSerialize | hdrSetcrc => obtain ⟨x, hx, rfl⟩ := h; exact ⟨x, hx, rfl⟩
  | imgBuild => obtain ⟨hl, rfl⟩ := h; exact ⟨hl, rfl⟩

/-- Settles O32: the halted block, the fault tables and the completed effects neither read nor write what is pending. -/
theorem commandsIgnoreTheStream : Obligations.CommandsIgnoreTheStream := by
  intro i s t bs moves hrun
  obtain ⟨hs, rfl⟩ | ⟨hs, c, a, he, rfl⟩ | ⟨hs, he, hcompleted⟩ := exec_next i s t hrun
  · exact ⟨rfl, rfl, exec_halted i (withPending bs moves t) hs⟩
  · have he' : expectedFault i (withPending bs moves s) = some (c, a) := (expectedFault_congr i s _ rfl rfl).trans he
    exact ⟨rfl, rfl, exec_of_expectedFault i (withPending bs moves s) c a hs he'⟩
  · have he' : expectedFault i (withPending bs moves s) = none := (expectedFault_congr i s _ rfl rfl).trans he
    obtain ⟨-, hstream, hhost⟩ := completed_keeps i s t hcompleted
    exact ⟨hstream, hhost,
      exec_of_completed i (withPending bs moves s) _ hs he' (completed_withPending i s t bs moves hcompleted)⟩

/-! ### Before and after reset (R10, R241) -/

/-- Settles O29: a halted block answers the state it finds, a running one its fault or its completed effect. -/
theorem everyCommandAnswersAfterReset : Obligations.EveryCommandAnswersAfterReset := by
  intro i s hp
  cases hf : statusFault s.status with
  | true => exact ⟨s, exec_halted i s ⟨hp, hf⟩, hp⟩
  | false =>
    obtain ⟨c, a, -, hrun⟩ | ⟨-, t, hrun, hcompleted⟩ := exec_ready i s ⟨hp, hf⟩
    · exact ⟨_, hrun, hp⟩
    · exact ⟨t, hrun, (completed_keeps i s t hcompleted).1.trans hp⟩

theorem observe_beforeReset (s : State) (hp : s.phase = .beforeReset) : observe s = none := by
  cases s
  cases hp
  rfl

theorem observe_afterReset (s : State) (hp : s.phase = .afterReset) :
    observe s = some ⟨s.out, s.result, s.status⟩ := by
  cases s
  cases hp
  rfl

/-- Settles O28: the gate refuses before reset, and the reset's next state is `State.reset` but for the host's later
moves. -/
theorem beforeResetIsRefused : Obligations.BeforeResetIsRefused := by
  have hready : Ready State.reset := ⟨rfl, rfl⟩
  exact ⟨fun s hp => ⟨fun i => exec_beforeReset i s hp, fun w => runCommand_beforeReset s _ hp, observe_beforeReset s hp⟩,
    fun s moves hstream hhost => ⟨_, step_reset s moves hstream hhost, hready, rfl, rfl⟩, rfl⟩

/-! ### What a step does to the registers -/

/-- What the block can do short of a reset: stay as it is, take a fault of R201's table, or complete a command. -/
def Advances (s t : State) : Prop :=
  t = s ∨ (∃ c f a, FaultRow (causeCode c) f a ∧ t = s.enterFault c f a) ∨ ∃ i, Completed i s t

theorem exec_advances (i : Instr) (s t : State) (h : exec i s = .next t) : Advances s t := by
  obtain ⟨-, rfl⟩ | ⟨-, c, a, he, rfl⟩ | ⟨-, -, hcompleted⟩ := exec_next i s t h
  · exact .inl rfl
  · exact .inr (.inl ⟨c, _, a, (expectedFault_row i s c a he).2, rfl⟩)
  · exact .inr (.inr ⟨i, hcompleted⟩)

theorem illegalCommand_advances (w : Word) (s t : State) (h : illegalCommand w s = .next t) : Advances s t := by
  obtain ⟨-, rfl⟩ | ⟨-, rfl⟩ := illegalCommand_next w s t h
  · exact .inl rfl
  · exact .inr (.inl ⟨_, _, _, .inr (.inr (.inl ⟨rfl, rfl⟩)), rfl⟩)

/-- A step is the host's reset, or the registers advance from what they held. -/
theorem step_advances (s t : State) (h : step s = .next t) :
    (∃ moves, s.host = .reset :: moves ∧ t = { State.reset with host := moves }) ∨
    (∃ bs moves, Advances (withPending bs moves s) t) := by
  obtain ⟨i, rest, -, hrun⟩ | ⟨w, rest, -, hrun⟩ | ⟨bs, moves, -, rfl⟩ | ⟨moves, hhost, -, rfl⟩ |
    ⟨i, moves, -, -, hrun⟩ := step_next s t h
  · exact .inr ⟨rest, s.host, exec_advances i (s.consume rest) t hrun⟩
  · exact .inr ⟨rest, s.host, illegalCommand_advances w (s.consume rest) t hrun⟩
  · exact .inr ⟨s.stream ++ bs, moves, .inl rfl⟩
  · exact .inl ⟨moves, hhost, rfl⟩
  · exact .inr ⟨s.stream, moves, exec_advances i { s with host := moves } t hrun⟩

theorem advances_phase (s t : State) (h : Advances s t) : t.phase = s.phase := by
  obtain rfl | ⟨c, f, a, -, rfl⟩ | ⟨i, hcompleted⟩ := h
  · rfl
  · rfl
  · exact (completed_keeps i s t hcompleted).1

/-- Settles O34: a fault keeps the validity bits, and a completed command only raises them. -/
theorem validityBitsStaySet : Obligations.ValidityBitsStaySet := by
  intro s t hstep
  obtain hreset | ⟨bs, moves, hadvance⟩ := step_advances s t hstep
  · exact .inl hreset
  · refine .inr fun k hlow hhigh hset => ?_
    obtain rfl | ⟨c, f, a, -, rfl⟩ | ⟨i, hcompleted⟩ := hadvance
    · exact hset
    · rw [State.enterFault_status, recordFault_getLsbD _ _ _ _ _ (by omega), if_neg (by omega), if_neg (by omega),
        if_neg (by omega)]
      exact Bool.or_eq_true_iff.mpr (.inr hset)
    · rw [completed_status i _ t hcompleted k (by omega)]
      exact Bool.or_eq_true_iff.mpr (.inr hset)

/-! ### Invariants -/

/-- Every step keeps an invariant that reset meets, that does not speak of what is pending, and that fault entry and
completed commands keep. -/
theorem step_keeps (inv : State → Prop) (hreset : inv State.reset)
    (hpending : ∀ s bs moves, inv s → inv (withPending bs moves s))
    (hfaults : ∀ s c f a, FaultRow (causeCode c) f a → inv s → inv (s.enterFault c f a))
    (hcompletes : ∀ i s t, Completed i s t → inv s → inv t)
    (s t : State) (hs : AfterReset inv s) (hstep : step s = .next t) : AfterReset inv t := by
  intro hp
  obtain ⟨moves, -, rfl⟩ | ⟨bs, moves, hadvance⟩ := step_advances s t hstep
  · exact hpending _ [] moves hreset
  · have hinv : inv (withPending bs moves s) := hpending s bs moves (hs ((advances_phase _ t hadvance).symm.trans hp))
    obtain rfl | ⟨c, f, a, hrow, rfl⟩ | ⟨i, hcompleted⟩ := hadvance
    · exact hinv
    · exact hfaults _ c f a hrow hinv
    · exact hcompletes i _ t hcompleted hinv

/-! #### STATUS (R27, R29, R201) -/

/-- A field that holds none of the raised bits is as it was. -/
theorem getBits_of_statusRaises (lo len : Nat) (ks : List Nat) (w w' : Word) (h : StatusRaises ks w w')
    (hl : lo + len ≤ 24) (hks : ∀ k ∈ ks, 24 ≤ k) : getBits lo len w' = getBits lo len w := by
  apply BitVec.eq_of_getLsbD_eq
  intro j hj
  have hnot : lo + j ∉ ks := fun hmem => absurd (hks _ hmem) (by omega)
  simp only [getBits, BitVec.getLsbD_extractLsb', h (lo + j) (by omega), hnot, decide_false, Bool.false_or]

/-- Raising validity bits touches no reserved bit. -/
theorem statusReserved_of_statusRaises (ks : List Nat) (w w' : Word) (h : StatusRaises ks w w')
    (hks : ∀ k ∈ ks, 24 ≤ k ∧ k ≤ 27) : statusReserved w' = statusReserved w := by
  apply BitVec.eq_of_getLsbD_eq
  intro j hj
  rw [statusReserved_getLsbD, statusReserved_getLsbD, h j hj]
  by_cases hmem : j ∈ ks
  · have hrange := hks j hmem
    simp [show ¬(1 ≤ j ∧ j ≤ 3) by omega, show ¬(18 ≤ j ∧ j ≤ 23) by omega, show ¬(28 ≤ j ∧ j ≤ 31) by omega]
  · simp [hmem]

theorem raisedBits_range (i : Instr) : ∀ k ∈ raisedBits i, 24 ≤ k ∧ k ≤ 27 := by
  cases i <;> simp [raisedBits]

theorem statusLegal_reset : StatusLegal State.reset :=
  ⟨by decide, by decide, nofun, rfl, rfl, rfl, rfl⟩

/-- Fault entry records a row of the table and keeps the validity bits and the registers they speak of. -/
theorem statusLegal_enterFault (s : State) (c : Cause) (f : Byte) (a : BitVec 2) (hrow : FaultRow (causeCode c) f a)
    (h : StatusLegal s) : StatusLegal (s.enterFault c f a) := by
  constructor
  case reserved => simpa using h.reserved
  case quiet => simp
  case recorded => simpa using hrow
  case accv => simpa using h.accv
  case hdrv => simpa using h.hdrv
  case outv => simpa using h.outv
  case resv => simpa using h.resv

/-- A completed command leaves the fault record and raises the validity bits of the registers it wrote. -/
theorem statusLegal_completed (i : Instr) (s t : State) (ht : Completed i s t) (h : StatusLegal s) : StatusLegal t := by
  have hraises := completed_status i s t ht
  have hrange := raisedBits_range i
  have hlow : ∀ k ∈ raisedBits i, 24 ≤ k := fun k hk => (hrange k hk).1
  have hfault : statusFault t.status = statusFault s.status := completed_fault i s t ht
  have hcause : statusCause t.status = statusCause s.status :=
    getBits_of_statusRaises 4 4 _ _ _ hraises (by omega) hlow
  have hfopc : statusFopc t.status = statusFopc s.status := getBits_of_statusRaises 8 8 _ _ _ hraises (by omega) hlow
  have hfarg : statusFarg t.status = statusFarg s.status := getBits_of_statusRaises 16 2 _ _ _ hraises (by omega) hlow
  obtain ⟨hacc, hhdr, hout, hresult⟩ := completed_isSome i s t ht
  constructor
  case reserved => exact (statusReserved_of_statusRaises _ _ _ hraises hrange).trans h.reserved
  case quiet => rw [hfault, hcause, hfopc, hfarg]; exact h.quiet
  case recorded => rw [hfault, hcause, hfopc, hfarg]; exact h.recorded
  case accv => rw [hacc, ← h.accv]; exact hraises 24 (by omega)
  case hdrv => rw [hhdr, ← h.hdrv]; exact hraises 25 (by omega)
  case outv => rw [hout, ← h.outv]; exact hraises 26 (by omega)
  case resv => rw [hresult, ← h.resv]; exact hraises 27 (by omega)

/-- Settles O33: reset meets `StatusLegal`, faults and completed commands keep it, and it speaks of registers only. -/
theorem statusStaysLegal : Obligations.StatusStaysLegal :=
  step_keeps StatusLegal statusLegal_reset
    (fun _ _ _ h => ⟨h.reserved, h.quiet, h.recorded, h.accv, h.hdrv, h.outv, h.resv⟩)
    statusLegal_enterFault statusLegal_completed

/-! #### The unused fields of HDR (R24) -/

theorem unusedZero_makeHeader (m v : Bytes) (n c : Word) (k : Nat) (hk : k < 8) :
    unusedView (makeHeader m v n c).bytes k = some 0#32 := by
  obtain ⟨-, -, hunused, -⟩ := headerBytes_slices m v n c
  exact unusedView_of_zeros _ hunused k hk

/-- Stamping the crc field leaves the unused fields (R138). -/
theorem unusedView_setCrcField (h : Header) (v : Word) (k : Nat) (hk : k < 8) :
    unusedView (setCrcField h v).bytes k = unusedView h.bytes k := by
  have hslice : slice (setCrcField h v).bytes (16 + 4 * k) (20 + 4 * k) = slice h.bytes (16 + 4 * k) (20 + 4 * k) :=
    calc slice (setCrcField h v).bytes (16 + 4 * k) (20 + 4 * k)
      _ = slice (h.bytes.take 52) (16 + 4 * k) (20 + 4 * k) := by
        rw [setCrcField_bytes, slice_append_left _ _ _ _ (by simp [h.size]; omega)]
      _ = slice h.bytes (16 + 4 * k) (20 + 4 * k) := by
        rw [slice, slice, List.take_take, Nat.min_eq_left (by omega)]
  exact congrArg fromLe32 hslice

/-- HDR's writers write an encoded header, or stamp the one HDR holds. -/
theorem unusedZero_completed (i : Instr) (s t : State) (ht : Completed i s t) (h : UnusedZero s) : UnusedZero t := by
  cases i with
  | crcSeed => cases ht; exact h
  | crcByte | crcAccum | crcRead | hdrSerialize => obtain ⟨_, -, rfl⟩ := ht; exact h
  | hdrEncode m v n =>
    cases ht
    rintro _ ⟨⟩
    exact unusedZero_makeHeader m v n 0#32
  | hdrSetcrc v =>
    obtain ⟨d, hd, rfl⟩ := ht
    rintro _ ⟨⟩ k hk
    exact (unusedView_setCrcField d v k hk).trans (h d hd k hk)
  | imgBuild m v p =>
    obtain ⟨-, rfl⟩ := ht
    rintro _ ⟨⟩
    exact unusedZero_makeHeader m v _ _

theorem unusedZero_reset : UnusedZero State.reset := nofun

/-- Settles O35: reset meets `UnusedZero`, completed commands keep it, and it speaks of HDR only. -/
theorem unusedFieldsStayZero : Obligations.UnusedFieldsStayZero :=
  step_keeps UnusedZero unusedZero_reset (fun _ _ _ h => h) (fun _ _ _ _ _ h => h) unusedZero_completed

/-! #### OUT (R25, R166) -/

/-- OUT's writers write a whole header or an image that verifies. -/
theorem outSound_completed (i : Instr) (s t : State) (ht : Completed i s t) (h : OutSound s) : OutSound t := by
  cases i with
  | crcSeed | hdrEncode => cases ht; exact h
  | crcByte | crcAccum | crcRead | hdrSetcrc => obtain ⟨_, -, rfl⟩ := ht; exact h
  | hdrSerialize =>
    obtain ⟨d, -, rfl⟩ := ht
    rintro _ ⟨⟩
    exact .inl d.size
  | imgBuild m v p =>
    obtain ⟨hl, rfl⟩ := ht
    rintro _ ⟨⟩
    exact .inr ⟨by simp [imageBytes_length], imageVerifies_imageBytes m v p hl⟩

theorem outSound_reset : OutSound State.reset := nofun

/-- Settles O36: reset meets `OutSound`, completed commands keep it, and it speaks of OUT only. -/
theorem outStaysSound : Obligations.OutStaysSound :=
  step_keeps OutSound outSound_reset (fun _ _ _ h => h) (fun _ _ _ _ _ h => h) outSound_completed

/-- Settles O37: the three are where the invariants' inductions begin. -/
theorem resetMeetsInvariants : Obligations.ResetMeetsInvariants :=
  ⟨rfl, statusLegal_reset, unusedZero_reset, outSound_reset⟩

/-! ### What the host observes (R29, R32) -/

/-- A legal STATUS holds a code that names a cause. -/
theorem observedCause_isSome (s : State) (h : StatusLegal s) : (observedCause s).isSome = true := by
  rw [observedCause]
  cases hf : statusFault s.status with
  | false => rw [(h.quiet hf).1]; rfl
  | true =>
    obtain ⟨hc, -⟩ | ⟨hc, -⟩ | ⟨hc, -⟩ | ⟨hc, -⟩ | ⟨hc, -⟩ := h.recorded hf
    all_goals rw [hc]; rfl

/-- Settles O50: the observation is the three registers, and the validity bits of a legal STATUS say which of them hold
a value. -/
theorem observationFollowsValidityBits : Obligations.ObservationFollowsValidityBits := by
  intro s hp h
  refine ⟨_, observe_afterReset s hp, rfl, rfl, rfl, ?_, ?_, observedCause_isSome s h⟩
  · rw [h.outv, Option.isSome_eq_false_iff, Option.isNone_iff_eq_none]
  · rw [h.resv, Option.isSome_eq_false_iff, Option.isNone_iff_eq_none]

end Sys2Proof.Proofs
end

section
/-! SUPPORT. Proofs of the statements about the stream form of commands (spec/30_encoding.md sections 1 to 4,
spec/20_memory.md section 1) and the step that takes a command from it. -/

namespace Sys2Proof.Proofs

open Sys2Proof.Machine

/-! ### Little-endian words (R9, R40) -/

/-- Byte `k` of the stored word, counted from the least significant (R40). -/
theorem le32_getElem? (v : Word) (k : Nat) (hk : k < 4) : (le32 v)[k]? = some (v.extractLsb' (8 * k) 8) := by
  interval_cases k <;> rfl

/-- `from_le32` is the inverse of `le32`, and is defined on nothing else (R9). -/
theorem fromLe32_eq_some (v : Word) (b : Bytes) : fromLe32 b = some v ↔ b = le32 v := by
  constructor
  · intro h
    match b, h with
    | [b0, b1, b2, b3], h =>
      cases h
      exact (le32_joined b0 b1 b2 b3).symm
  · rintro rfl
    exact fromLe32_le32 v

/-- Settles O47: a byte of the stored word is a slice of the word's bits, and `from_le32` the inverse of `le32`. -/
theorem wordsAreLittleEndian : Obligations.WordsAreLittleEndian := by
  refine ⟨fun v k hk => ?_, fromLe32_eq_some⟩
  rw [le32_getElem? v k hk, Option.map_some, BitVec.extractLsb'_toNat, Nat.shiftRight_eq_div_pow, Nat.pow_mul]

/-! ### The command word (R61, R66, R67) -/

/-- A word is its three fields (R61). -/
theorem word_eq_fields (w : Word) : w = (rsvdField w ++ immField w ++ opcField w : BitVec (16 + 8 + 8)) := by
  apply BitVec.eq_of_getLsbD_eq
  intro k hk
  simp only [rsvdField, immField, opcField, BitVec.getLsbD_append, BitVec.getLsbD_extractLsb']
  split_ifs with h1 h2
  · simp [h1]
  · simp [h2, show 8 + (k - 8) = k by omega]
  · simp [show k - 8 - 8 < 16 by omega, show 16 + (k - 8 - 8) = k by omega]

/-- A legal word has RSVD 0, its operation's OPC, and IMM8 0 outside CRC.BYTE (R67). -/
theorem decodeWord_eq_some (w : Word) (op : Opcode) (h : decodeWord w = some op) :
    w = 0#16 ++ immField w ++ opcodeCode op ∧ (op ≠ .crcByte → immField w = 0#8) := by
  have hopc : opcodeCode op = opcField w := (opcodeOf_eq_some_iff _ _).mp (opcodeOf_of_decodeWord w op h)
  have hlegal : ¬ (rsvdField w ≠ 0#16 ∨ opcodeOf (opcField w) = none ∨ (opcField w ≠ 0x02#8 ∧ immField w ≠ 0#8)) := by
    rw [← decodeWord_eq_none_iff, h]
    nofun
  obtain ⟨hrsvd, -, himm⟩ : rsvdField w = 0#16 ∧ _ ∧ (opcField w = 0x02#8 ∨ immField w = 0#8) := by
    simpa only [not_or, not_and_or, not_not] using hlegal
  constructor
  · rw [hopc, ← hrsvd]
    exact word_eq_fields w
  · intro hop
    exact himm.resolve_left (by rw [← hopc, opcodeCode_eq_crcByte_iff]; exact hop)

/-- The word of a legal command is the command's own (R61, R66). -/
theorem encodeWord_of_decodeWord (w : Word) (i : Instr) (h : decodeWord w = some (opcodeOfInstr i))
    (himm : opcodeOfInstr i = .crcByte → immOfInstr i = immField w) : encodeWord i = w := by
  obtain ⟨hw, hzero⟩ := decodeWord_eq_some w _ h
  have himm' : immOfInstr i = immField w := by
    by_cases hop : opcodeOfInstr i = .crcByte
    · exact himm hop
    · rw [hzero hop]
      cases i with
      | crcByte => exact absurd rfl hop
      | _ => rfl
  rw [encodeWord, himm']
  exact hw.symm

/-! ### Operands (R63, R64, R65) -/

theorem encodeBytes_eq (b : Bytes) : encodeBytes b = le32 (BitVec.ofNat 32 b.length) ++ b := rfl

/-- HDR.ENCODE's operands and what follows them, operand by operand. -/
theorem encodeOperands_hdrEncode_append (m v : Bytes) (n : Word) (rest : Bytes) :
    encodeOperands (.hdrEncode m v n) ++ rest = encodeBytes m ++ (encodeBytes v ++ (le32 n ++ rest)) :=
  (List.append_assoc (encodeBytes m ++ encodeBytes v) (le32 n) rest).trans (List.append_assoc _ _ _)

/-- IMG.BUILD's operands and what follows them, operand by operand. -/
theorem encodeOperands_imgBuild_append (m v p rest : Bytes) :
    encodeOperands (.imgBuild m v p) ++ rest = encodeBytes m ++ (encodeBytes v ++ (encodeBytes p ++ rest)) :=
  (List.append_assoc (encodeBytes m ++ encodeBytes v) (encodeBytes p) rest).trans (List.append_assoc _ _ _)

/-- A command's stream form and what follows it: the word, the operands and the rest. -/
theorem encode_append (i : Instr) (rest : Bytes) :
    encode i ++ rest = le32 (encodeWord i) ++ (encodeOperands i ++ rest) :=
  List.append_assoc _ _ _

/-- A stream a BYTES operand can be read from begins with that operand's stream form (R65). -/
theorem takeBytes_eq_some (bs b rest : Bytes) (h : takeBytes bs = some (b, rest)) :
    bytesFit b = true ∧ bs = encodeBytes b ++ rest := by
  unfold takeBytes at h
  cases hu : takeU32 bs with
  | none => simp [hu] at h
  | some x =>
    obtain ⟨n, r⟩ := x
    simp only [hu, Option.ite_none_right_eq_some, Option.some.injEq, Prod.mk.injEq] at h
    obtain ⟨hn, rfl, rfl⟩ := h
    have hlen : (r.take n.toNat).length = n.toNat := by simp [hn]
    constructor
    · rw [bytesFit_iff, hlen]
      exact n.isLt
    · rw [(takeU32_eq_some bs r n).mp hu, encodeBytes_eq, hlen, BitVec.ofNat_toNat, BitVec.setWidth_eq, List.append_assoc,
        List.take_append_drop]

/-- The operand readers with more than one way to fail, as sequences of reads. -/
theorem takeAccum_eq (bs : Bytes) :
    takeAccum bs = (takeBytes bs).bind fun d => some (.crcAccum d.1, d.2) := by
  rw [takeAccum]
  cases takeBytes bs <;> rfl

theorem takeEncode_eq (bs : Bytes) :
    takeEncode bs = (takeBytes bs).bind fun m => (takeBytes m.2).bind fun v => (takeU32 v.2).bind fun n =>
      some (.hdrEncode m.1 v.1 n.1, n.2) := by
  rw [takeEncode]
  cases takeBytes bs with
  | none => rfl
  | some m =>
    cases hv : takeBytes m.2 with
    | none => simp [hv]
    | some v => cases hn : takeU32 v.2 <;> simp [hv, hn]

theorem takeBuild_eq (bs : Bytes) :
    takeBuild bs = (takeBytes bs).bind fun m => (takeBytes m.2).bind fun v => (takeBytes v.2).bind fun p =>
      some (.imgBuild m.1 v.1 p.1, p.2) := by
  rw [takeBuild]
  cases takeBytes bs with
  | none => rfl
  | some m =>
    cases hv : takeBytes m.2 with
    | none => simp [hv]
    | some v => cases hp : takeBytes v.2 <;> simp [hv, hp]

/-- The operands' stream form is read back, whatever follows it (R65). -/
theorem takeOperands_encodeOperands (i : Instr) (rest : Bytes) (h : wellFormed i = true) :
    takeOperands (opcodeOfInstr i) (immOfInstr i) (encodeOperands i ++ rest) = some (i, rest) := by
  cases i with
  | crcSeed v => exact congrArg (Option.map fun p => (Instr.crcSeed p.1, p.2)) (takeU32_le32 v rest)
  | hdrSetcrc v => exact congrArg (Option.map fun p => (Instr.hdrSetcrc p.1, p.2)) (takeU32_le32 v rest)
  | crcByte | crcRead | hdrSerialize => rfl
  | crcAccum d => exact (takeAccum_eq _).trans (congrArg (Option.bind · _) (takeBytes_encodeBytes d rest h))
  | hdrEncode m v n =>
    obtain ⟨hm, hv⟩ := Bool.and_eq_true_iff.mp h
    refine (takeEncode_eq _).trans ?_
    rw [encodeOperands_hdrEncode_append, takeBytes_encodeBytes m _ hm, Option.bind_some,
      takeBytes_encodeBytes v _ hv, Option.bind_some, takeU32_le32]
    rfl
  | imgBuild m v p =>
    obtain ⟨hmv, hp⟩ := Bool.and_eq_true_iff.mp h
    obtain ⟨hm, hv⟩ := Bool.and_eq_true_iff.mp hmv
    refine (takeBuild_eq _).trans ?_
    rw [encodeOperands_imgBuild_append, takeBytes_encodeBytes m _ hm, Option.bind_some,
      takeBytes_encodeBytes v _ hv, Option.bind_some, takeBytes_encodeBytes p _ hp]
    rfl

/-- A U32 operand's stream form, as the operand readers wrap it into a command. -/
theorem takeU32_map_eq_some (make : Word → Instr) (bs rest : Bytes) (i : Instr)
    (h : (takeU32 bs).map (fun p => (make p.1, p.2)) = some (i, rest)) : ∃ v, i = make v ∧ bs = le32 v ++ rest := by
  obtain ⟨⟨v, r⟩, hv, heq⟩ := Option.map_eq_some_iff.mp h
  cases heq
  exact ⟨v, rfl, (takeU32_eq_some bs r v).mp hv⟩

theorem takeAccum_eq_some (bs rest : Bytes) (i : Instr) (h : takeAccum bs = some (i, rest)) :
    ∃ d, i = .crcAccum d ∧ wellFormed i = true ∧ bs = encodeOperands i ++ rest := by
  rw [takeAccum_eq] at h
  obtain ⟨⟨d, r⟩, hd, ⟨⟩⟩ := Option.bind_eq_some_iff.mp h
  exact ⟨d, rfl, takeBytes_eq_some _ _ _ hd⟩

theorem takeEncode_eq_some (bs rest : Bytes) (i : Instr) (h : takeEncode bs = some (i, rest)) :
    ∃ m v n, i = .hdrEncode m v n ∧ wellFormed i = true ∧ bs = encodeOperands i ++ rest := by
  rw [takeEncode_eq] at h
  obtain ⟨⟨m, bs1⟩, hm, h1⟩ := Option.bind_eq_some_iff.mp h
  obtain ⟨⟨v, bs2⟩, hv, h2⟩ := Option.bind_eq_some_iff.mp h1
  obtain ⟨⟨n, r⟩, hn, ⟨⟩⟩ := Option.bind_eq_some_iff.mp h2
  obtain ⟨hfitm, rfl⟩ := takeBytes_eq_some _ _ _ hm
  obtain ⟨hfitv, rfl⟩ := takeBytes_eq_some _ _ _ hv
  obtain rfl : bs2 = le32 n ++ r := (takeU32_eq_some _ _ _).mp hn
  exact ⟨m, v, n, rfl, Bool.and_eq_true_iff.mpr ⟨hfitm, hfitv⟩,
    (encodeOperands_hdrEncode_append m v n r).symm⟩

theorem takeBuild_eq_some (bs rest : Bytes) (i : Instr) (h : takeBuild bs = some (i, rest)) :
    ∃ m v p, i = .imgBuild m v p ∧ wellFormed i = true ∧ bs = encodeOperands i ++ rest := by
  rw [takeBuild_eq] at h
  obtain ⟨⟨m, bs1⟩, hm, h1⟩ := Option.bind_eq_some_iff.mp h
  obtain ⟨⟨v, bs2⟩, hv, h2⟩ := Option.bind_eq_some_iff.mp h1
  obtain ⟨⟨p, r⟩, hp, ⟨⟩⟩ := Option.bind_eq_some_iff.mp h2
  obtain ⟨hfitm, rfl⟩ := takeBytes_eq_some _ _ _ hm
  obtain ⟨hfitv, rfl⟩ := takeBytes_eq_some _ _ _ hv
  obtain ⟨hfitp, rfl⟩ := takeBytes_eq_some _ _ _ hp
  exact ⟨m, v, p, rfl, Bool.and_eq_true_iff.mpr ⟨Bool.and_eq_true_iff.mpr ⟨hfitm, hfitv⟩, hfitp⟩,
    (encodeOperands_imgBuild_append m v p r).symm⟩

/-- A stream an operation's operands can be read from begins with the stream form of the command's operands. -/
theorem takeOperands_eq_some (op : Opcode) (imm : Byte) (bs rest : Bytes) (i : Instr)
    (h : takeOperands op imm bs = some (i, rest)) :
    opcodeOfInstr i = op ∧ (op = .crcByte → immOfInstr i = imm) ∧ wellFormed i = true ∧
      bs = encodeOperands i ++ rest := by
  cases op with
  | crcSeed =>
    obtain ⟨v, rfl, rfl⟩ := takeU32_map_eq_some .crcSeed bs rest i h
    exact ⟨rfl, nofun, rfl, rfl⟩
  | crcByte => cases h; exact ⟨rfl, fun _ => rfl, rfl, rfl⟩
  | crcAccum =>
    obtain ⟨d, rfl, hfit, hbs⟩ := takeAccum_eq_some bs rest i h
    exact ⟨rfl, nofun, hfit, hbs⟩
  | crcRead | hdrSerialize => cases h; exact ⟨rfl, nofun, rfl, rfl⟩
  | hdrEncode =>
    obtain ⟨m, v, n, rfl, hfit, hbs⟩ := takeEncode_eq_some bs rest i h
    exact ⟨rfl, nofun, hfit, hbs⟩
  | hdrSetcrc =>
    obtain ⟨v, rfl, rfl⟩ := takeU32_map_eq_some .hdrSetcrc bs rest i h
    exact ⟨rfl, nofun, rfl, rfl⟩
  | imgBuild =>
    obtain ⟨m, v, p, rfl, hfit, hbs⟩ := takeBuild_eq_some bs rest i h
    exact ⟨rfl, nofun, hfit, hbs⟩

/-! ### The stream form of a command (R65, R67) -/

/-- A legal word at the front of the stream: what its operation's operands make of it. -/
theorem decode_legal (w : Word) (op : Opcode) (rest : Bytes) (h : decodeWord w = some op) :
    decode (le32 w ++ rest) =
      (takeOperands op (immField w) rest).elim .incomplete fun x => .command x.1 x.2 := by
  rw [decode, takeU32_le32]
  simp only [h]
  cases takeOperands op (immField w) rest <;> rfl

/-- Settles O39: the command's word decodes to its operation, and the operands are read back. -/
theorem streamRoundTrip : Obligations.StreamRoundTrip := by
  intro i rest h
  have himm : immField (encodeWord i) = immOfInstr i := immField_word _ _
  rw [encode_append, decode_legal _ _ _ (decodeWord_encodeWord i), himm, takeOperands_encodeOperands i rest h]
  rfl

/-- A stream with fewer than four bytes is incomplete; every other begins with a word (R67). -/
theorem decode_incomplete_or_word (bs : Bytes) : decode bs = .incomplete ∨ ∃ w rest, bs = le32 w ++ rest := by
  match bs with
  | [] => exact .inl rfl
  | [_] => exact .inl rfl
  | [_, _] => exact .inl rfl
  | [_, _, _] => exact .inl rfl
  | b0 :: b1 :: b2 :: b3 :: rest =>
    refine .inr ⟨b3 ++ b2 ++ b1 ++ b0, rest, ?_⟩
    rw [le32_joined]
    rfl

/-- A stream is incomplete, or it begins with an ILLEGAL word, or with the stream form of a well-formed command. -/
theorem decode_cases (bs : Bytes) :
    decode bs = .incomplete ∨
    (∃ w rest, decode bs = .illegal w rest ∧ decodeWord w = none ∧ bs = le32 w ++ rest) ∨
    (∃ i rest, decode bs = .command i rest ∧ wellFormed i = true ∧ bs = encode i ++ rest) := by
  obtain hshort | ⟨w, rest, rfl⟩ := decode_incomplete_or_word bs
  · exact .inl hshort
  · cases hop : decodeWord w with
    | none => exact .inr (.inl ⟨w, rest, decode_illegal w rest hop, hop, rfl⟩)
    | some op =>
      rw [decode_legal w op rest hop]
      cases hoperands : takeOperands op (immField w) rest with
      | none => exact .inl rfl
      | some x =>
        obtain ⟨i, rest'⟩ := x
        obtain ⟨rfl, himm, hfit, rfl⟩ := takeOperands_eq_some _ _ _ _ _ hoperands
        refine .inr (.inr ⟨i, rest', rfl, hfit, ?_⟩)
        rw [encode_append, encodeWord_of_decodeWord w i hop himm]

/-- A stream that decodes to an ILLEGAL word begins with that word. -/
theorem decode_eq_illegal (bs rest : Bytes) (w : Word) (h : decode bs = .illegal w rest) :
    decodeWord w = none ∧ bs = le32 w ++ rest := by
  obtain hd | ⟨w', rest', hd, hw⟩ | ⟨i, rest', hd, -⟩ := decode_cases bs
  · cases h.symm.trans hd
  · cases h.symm.trans hd
    exact hw
  · cases h.symm.trans hd

/-- Settles O40: of the three cases of a stream, only a command's stream form decodes to a command. -/
theorem decodedStreamIsTheEncoding : Obligations.DecodedStreamIsTheEncoding := by
  intro bs i rest h
  obtain hd | ⟨w, rest', hd, -⟩ | ⟨j, rest', hd, hj⟩ := decode_cases bs
  · cases h.symm.trans hd
  · cases h.symm.trans hd
  · cases h.symm.trans hd
    exact hj

/-- Settles O41: a part that decoded to a command or to an ILLEGAL word would decode to the same with the missing bytes
after it; but then the whole decodes to the whole command. -/
theorem properPartIsIncomplete : Obligations.ProperPartIsIncomplete := by
  intro i k h hk
  have hwhole : decode ((encode i).take k ++ (encode i).drop k) = .command i [] := by
    have hround := streamRoundTrip i [] h
    rwa [List.append_nil, ← List.take_append_drop k (encode i)] at hround
  cases hpart : decode ((encode i).take k) with
  | incomplete => rfl
  | command j rest =>
    obtain ⟨hj, htake⟩ := decodedStreamIsTheEncoding _ _ _ hpart
    rw [htake, List.append_assoc, streamRoundTrip j _ hj] at hwhole
    injection hwhole with _ hrest
    have hmissing : (encode i).drop k = [] := (List.append_eq_nil_iff.mp hrest).2
    exact absurd (List.drop_eq_nil_iff.mp hmissing) (by omega)
  | illegal w rest =>
    obtain ⟨hw, htake⟩ := decode_eq_illegal _ _ _ hpart
    rw [htake, List.append_assoc, decode_illegal w _ hw] at hwhole
    cases hwhole

/-- Settles O42: each sequence is decoded as it stands. -/
theorem writtenOutWordsDecode : Obligations.WrittenOutWordsDecode := by
  unfold Obligations.WrittenOutWordsDecode
  decide

/-! ### The step and the stream (R65, R67, R220, R240) -/

/-- Settles O43: the two ways a command comes to run are the model's laws of the step. -/
theorem stepRunsDecodedCommand : Obligations.StepRunsDecodedCommand :=
  ⟨step_command, step_issue⟩

/-- Settles O45: while no command is complete in the stream, the step takes the host's delivery. -/
theorem deliveryChangesNoRegister : Obligations.DeliveryChangesNoRegister :=
  step_deliver

/-- Settles O46: while no command is complete in the stream, the step asks for the host's move, and both moves ask for
an empty stream. -/
theorem brokenOffCommandIsRefused : Obligations.BrokenOffCommandIsRefused := by
  intro s moves i hstream hd hhost
  have hfetch : fetch s = hostMove s := by rw [fetch, hd]
  have hrefuse : hostMove s = .refuse .commandBrokenOff := by
    obtain hreset | hissue := hhost
    · rw [hostMove, hreset]
      exact if_neg hstream
    · rw [hostMove, hissue]
      exact if_neg hstream
  rw [step, hfetch, hrefuse]

/-- Settles O44: the delivery leaves the command's stream form alone in the stream, and both forms run the command in the
same state. -/
theorem streamAndAbstractFormsAgree : Obligations.StreamAndAbstractFormsAgree := by
  intro s i moves h hstream hhost
  have hdelivered : step s = .next { s with stream := encode i, host := moves } := by
    rw [step_deliver s (encode i) moves (by rw [hstream, decode_nil]) hhost, hstream, List.nil_append]
  have hdecode : decode (encode i) = .command i [] := by
    rw [← List.append_nil (encode i), streamRoundTrip i [] h]
  refine ⟨_, hdelivered, ?_⟩
  rw [step_command { s with stream := encode i, host := moves } i [] hdecode,
    step_issue { s with host := .issue i :: moves } i moves hstream rfl, State.consume, ← hstream]

end Sys2Proof.Proofs
end

section
/-! SUPPORT. Proofs of the statements about the engine's arithmetic laws and its normal form
(spec/40_crc_engine.md section 1). -/

namespace Sys2Proof.Proofs

open Sys2Proof.Machine

/-! ### Linearity, zeros and the residue (R106) -/

/-- Settles O4: both are the linearity laws of the steps. -/
theorem crcByteIsLinear : Obligations.CrcByteIsLinear :=
  ⟨bitstep_xor, fun c1 c2 b1 b2 => (crcByte_xor c1 c2 b1 b2).symm⟩

/-- Zeros leave a zero accumulator (R106 (b)). -/
theorem accumulate_zero_zeros (n : Nat) : accumulate 0#32 (zeros n) = 0#32 := by
  induction n with
  | zero => rfl
  | succ n ih =>
    calc accumulate 0#32 (zeros (n + 1))
      _ = accumulate (crcByte 0#32 0#8) (zeros n) := rfl
      _ = accumulate 0#32 (zeros n) := by rw [show crcByte 0#32 0#8 = 0#32 by decide]
      _ = 0#32 := ih

/-- A further byte that is the low byte of the shifted accumulator shifts it once more. -/
theorem crcByte_shifted (c : Word) (k : Nat) : crcByte (c >>> k) (c.extractLsb' k 8) = c >>> (k + 8) := by
  have hbyte : c.extractLsb' k 8 = (c >>> k).setWidth 8 := by
    apply BitVec.eq_of_getLsbD_eq
    intro j _
    simp
  rw [hbyte, crcByte_low_byte, BitVec.shiftRight_add]

/-- Each of the accumulator's own bytes shifts it by 8, so that four of them clear it (R106 (c)). -/
theorem accumulate_le32_self (c : Word) : accumulate c (le32 c) = 0#32 := by
  have hlow : crcByte c (c.extractLsb' 0 8) = c >>> 8 := by simpa using crcByte_shifted c 0
  rw [le32, accumulate, List.foldl_cons, List.foldl_cons, List.foldl_cons, List.foldl_cons, List.foldl_nil, hlow,
    crcByte_shifted c 8, crcByte_shifted c 16, crcByte_shifted c 24]
  exact BitVec.ushiftRight_eq_zero (by omega)

/-- Settles O5: `accumulate_zero_zeros` is law (b), `accumulate_le32_self` law (c). -/
theorem zeroFixedPointAndResidue : Obligations.ZeroFixedPointAndResidue :=
  ⟨accumulate_zero_zeros, accumulate_le32_self⟩

/-! ### The normal form (R100) -/

/-- The two spellings of the generator are each other's reflection (90_conflicts.md C7). -/
theorem polyRefl_reverse : Config.polyRefl.reverse = Config.polyNormal := by
  apply BitVec.eq_of_getMsbD_eq
  intro k hk
  rw [BitVec.getMsbD_reverse]
  interval_cases k <;> rfl

/-- A left shift of the reflected word is the reflection of the right shift. -/
theorem reverse_ushiftRight_one (c : Word) : (c >>> 1).reverse = c.reverse <<< 1 := by
  apply BitVec.eq_of_getMsbD_eq
  intro k hk
  simp [BitVec.getMsbD_reverse, Nat.add_comm]

theorem reverse_xor (x y : Word) : (x ^^^ y).reverse = x.reverse ^^^ y.reverse := by
  apply BitVec.eq_of_getMsbD_eq
  intro k hk
  simp [BitVec.getMsbD_reverse]

/-- Reflection turns the right-shifting step into the left-shifting one. -/
theorem reverse_semiconj_bitstep : Function.Semiconj BitVec.reverse bitstep bitstepNormal := by
  intro c
  have hbit : c.reverse.getLsbD 31 = c.getLsbD 0 := BitVec.getLsbD_reverse
  rw [bitstep, bitstepNormal, hbit]
  split
  · rw [reverse_xor, reverse_ushiftRight_one, polyRefl_reverse]
  · rw [reverse_ushiftRight_one]

/-- The reflected byte enters at the top where the byte enters at the bottom. -/
theorem reverse_setWidth_byte (b : Byte) : (b.setWidth 32).reverse = b.reverse.setWidth 32 <<< 24 := by
  apply BitVec.eq_of_getLsbD_eq
  intro k hk
  rw [BitVec.getLsbD_reverse, BitVec.getMsbD_eq_getLsbD, BitVec.getLsbD_shiftLeft, BitVec.getLsbD_setWidth,
    BitVec.getLsbD_setWidth, BitVec.getLsbD_reverse, BitVec.getMsbD_eq_getLsbD]
  by_cases h : k < 24
  · have hhigh : b.getLsbD (31 - k) = false := BitVec.getLsbD_of_ge _ _ (by omega)
    simp [h, hhigh]
  · have hsame : 8 - 1 - (k - 24) = 32 - 1 - k := by omega
    simp [h, hk, hsame, show k - 24 < 8 by omega, show k - 24 < 32 by omega]
    omega

/-- Reflection turns the byte step into the normal form's. -/
theorem reverse_crcByte (c : Word) (b : Byte) : (crcByte c b).reverse = crcByteNormal c.reverse b := by
  rw [crcByte, crcByteNormal, ← reverse_setWidth_byte, ← reverse_xor]
  exact reverse_semiconj_bitstep.iterate_right 8 _

/-- Settles O3: reflection carries the register of the engine, byte by byte, to that of the normal form. -/
theorem engineEqualsNormalForm : Obligations.EngineEqualsNormalForm := by
  intro s d
  have hfold : d.foldl crcByteNormal s.reverse = (accumulate s d).reverse :=
    List.foldl_hom BitVec.reverse fun c b => (reverse_crcByte c b).symm
  rw [accumulateNormal, hfold, BitVec.reverse_reverse_eq]

end Sys2Proof.Proofs
end

section
/-! SUPPORT. Proof of the statement about the source's literal slice (90_conflicts.md C3). The slice takes in the 1992
zeros of the padding. A run of zeros is a power of the bit step, and the bit step is multiplication by x modulo the
polynomial: that power is a product with one fixed word, which repeated squaring finds. -/

namespace Sys2Proof.Proofs

open Sys2Proof.Machine

/-! ### Runs of zeros as products -/

/-- The polynomial 1 in the reflected spelling, where bit `k` is the coefficient of x^(31-k). -/
def unitWord : Word := 0x80000000#32

/-- One further bit `k` of `c` in the product of `a` and `c`. -/
def polyMulStep (a c acc : Word) (k : Nat) : Word := bitstep acc ^^^ if c.getLsbD k then a else 0#32

theorem polyMulStep_eq (a c acc : Word) (k : Nat) :
    polyMulStep a c acc k = bitstep acc ^^^ if c.getLsbD k then a else 0#32 := rfl

/-- The product of two words modulo the polynomial, by Horner's rule from the highest power of `c` down. -/
def polyMul (a c : Word) : Word := (List.range 32).foldl (polyMulStep a c) 0#32

theorem unitWord_if_getLsbD (b : Bool) (j : Nat) (hj : j < 32) :
    (if b then unitWord else 0#32).getLsbD j = (decide (j = 31) && b) := by
  have hunit : unitWord.getLsbD j = decide (j = 31) := by interval_cases j <;> rfl
  cases b <;> simp [hunit]

/-- The bit step after a left shift takes back one place of it. -/
theorem bitstep_shiftLeft_succ (c : Word) (r j : Nat) :
    (bitstep (c <<< (r + 1))).getLsbD j = (decide (j < 31) && (c <<< r).getLsbD j) := by
  have hlow : (c <<< (r + 1)).getLsbD 0 = false := by simp
  rw [bitstep_getLsbD, hlow, Bool.false_and, Bool.xor_false, BitVec.getLsbD_shiftLeft, BitVec.getLsbD_shiftLeft,
    Nat.add_sub_add_right]
  by_cases hj : j < 31
  · simp only [hj, show j + 1 < 32 by omega, show j < 32 by omega, Nat.add_lt_add_iff_right, decide_true, Bool.true_and]
  · simp [hj, show ¬ j + 1 < 32 by omega]

/-- Horner's rule with the unit shifts in the bits of `c` from the top; nothing is shifted out before the last. -/
theorem foldl_polyMulStep_unit (c : Word) (n : Nat) (hn : n ≤ 32) :
    (List.range n).foldl (polyMulStep unitWord c) 0#32 = c <<< (32 - n) := by
  induction n with
  | zero => exact (BitVec.shiftLeft_eq_zero (by omega)).symm
  | succ n ih =>
    obtain ⟨r, hr⟩ : ∃ r, 32 - n = r + 1 := ⟨31 - n, by omega⟩
    have hr' : 32 - (n + 1) = r := by omega
    rw [List.range_succ, List.foldl_append, ih (by omega), List.foldl_cons, List.foldl_nil, polyMulStep_eq, hr, hr']
    apply BitVec.eq_of_getLsbD_eq
    intro j hj
    rw [BitVec.getLsbD_xor, bitstep_shiftLeft_succ, unitWord_if_getLsbD _ j hj]
    obtain rfl | hlt : j = 31 ∨ j < 31 := by omega
    · have htop : (c <<< r).getLsbD 31 = c.getLsbD n := by
        rw [BitVec.getLsbD_shiftLeft, show 31 - r = n by omega]
        simp [show ¬ 31 < r by omega]
      simp only [htop, Nat.lt_irrefl, decide_false, Bool.false_and, decide_true, Bool.true_and, Bool.false_xor]
    · simp [hlt, hlt.ne]

theorem polyMul_eq (a c : Word) : polyMul a c = (List.range 32).foldl (polyMulStep a c) 0#32 := rfl

theorem polyMul_unitWord (c : Word) : polyMul unitWord c = c :=
  (foldl_polyMulStep_unit c 32 le_rfl).trans (BitVec.shiftLeft_zero c)

/-- Powers of the bit step are linear over XOR, and so may be taken on the first factor. -/
theorem iterate_bitstep_polyMul (n : Nat) (a c : Word) : bitstep^[n] (polyMul a c) = polyMul (bitstep^[n] a) c := by
  have hzero : bitstep^[n] 0#32 = 0#32 := Function.iterate_fixed (by decide) n
  have hstep : ∀ acc k, polyMulStep (bitstep^[n] a) c (bitstep^[n] acc) k = bitstep^[n] (polyMulStep a c acc k) := by
    intro acc k
    rw [polyMulStep_eq, polyMulStep_eq, bitstep_xor.iterate n, Function.Commute.iterate_self bitstep n acc, apply_ite bitstep^[n],
      hzero]
  rw [polyMul_eq, polyMul_eq, ← List.foldl_hom bitstep^[n] hstep, hzero]

/-- A power of the bit step is the product with that power's value at the unit. -/
theorem iterate_bitstep_eq_polyMul (n : Nat) (c : Word) : bitstep^[n] c = polyMul (bitstep^[n] unitWord) c := by
  rw [← iterate_bitstep_polyMul, polyMul_unitWord]

/-- A row of words each the square of the one before it leads from a power of the bit step at the unit to a higher one. -/
theorem iterate_bitstep_unit_of_isChain (n k : Nat) (x y : Word) (xs : List Word) (hx : bitstep^[n] unitWord = x)
    (h : List.IsChain (fun a b => polyMul a a = b) (x :: xs)) (hk : n * 2 ^ xs.length = k) (hy : xs.getLastD x = y) :
    bitstep^[k] unitWord = y := by
  induction xs generalizing n x with
  | nil => rw [← hk, ← hy, List.length_nil, Nat.pow_zero, Nat.mul_one, hx, List.getLastD_nil]
  | cons z zs ih =>
    obtain ⟨hsquare, hrest⟩ := List.isChain_cons_cons.mp h
    have hz : bitstep^[n * 2] unitWord = z := by
      rw [Nat.mul_two, Function.iterate_add_apply, hx, iterate_bitstep_eq_polyMul n x, hx, hsquare]
    rw [List.length_cons, Nat.pow_succ', ← Nat.mul_assoc] at hk
    rw [List.getLastD_cons] at hy
    exact ih (n * 2) z hz hrest hk hy

/-- A zero byte is eight bit steps. -/
theorem accumulate_zeros (c : Word) (n : Nat) : accumulate c (zeros n) = bitstep^[8 * n] c := by
  induction n generalizing c with
  | zero => rfl
  | succ n ih =>
    have hbyte : crcByte c 0#8 = bitstep^[8] c := by simp [crcByte]
    calc accumulate c (zeros (n + 1))
      _ = accumulate (crcByte c 0#8) (zeros n) := rfl
      _ = bitstep^[8 * (n + 1)] c := by rw [ih, hbyte, ← Function.iterate_add_apply, Nat.mul_succ]

/-! ### The worked example -/

/-- The source's literal slice of an image: the string fields and the unused words, zeros for the crc, then the padding
and the payload; the filesize field is left out. -/
theorem literalSlice_imageBytes (m v p : Bytes) :
    slice (imageBytes m v p) 0 48 ++ zeros 4 ++ (imageBytes m v p).drop 56 =
      (field8 m ++ field8 v ++ zeros 32 ++ zeros 4) ++ (zeros 1992 ++ p) := by
  have hrest : (imageBytes m v p).drop 56 = zeros 1992 ++ p := by
    rw [imageBytes_eq]
    exact List.drop_left' (headerBytes_length _ _ _ _)
  have hfields : slice (imageBytes m v p) 0 48 = field8 m ++ field8 v ++ zeros 32 := by
    rw [show imageBytes m v p = [] ++ ((field8 m ++ field8 v ++ zeros 32) ++
      (le32 (lengthWord p) ++ le32 (imageCrc m v p) ++ (zeros 1992 ++ p))) by simp [imageBytes_eq, headerBytes]]
    exact slice_append_middle _ _ _ _ _ rfl (by simp [field8_length])
  rw [hrest, hfields]

/-- A left fold that computes the word before each further element, so that a long fold can be evaluated. -/
def foldStrict {α : Type} (f : Word → α → Word) : List α → Word → Word
  | [], c => c
  | a :: l, c =>
    match (f c a).toNat with
    | 0 => foldStrict f l 0#32
    | n + 1 => foldStrict f l (BitVec.ofNat 32 (n + 1))

theorem foldl_eq_foldStrict {α : Type} (f : Word → α → Word) (l : List α) (c : Word) :
    l.foldl f c = foldStrict f l c := by
  induction l generalizing c with
  | nil => rfl
  | cons a l ih =>
    have hstep : foldStrict f (a :: l) c = foldStrict f l (BitVec.ofNat 32 (f c a).toNat) := by
      change (match (f c a).toNat with
        | 0 => foldStrict f l 0#32
        | n + 1 => foldStrict f l (BitVec.ofNat 32 (n + 1))) = _
      cases (f c a).toNat <;> rfl
    rw [hstep, BitVec.ofNat_toNat, BitVec.setWidth_eq, List.foldl_cons, ih]

theorem accumulate_eq_foldStrict (c : Word) (d : Bytes) : accumulate c d = foldStrict crcByte d c :=
  foldl_eq_foldStrict crcByte d c

theorem polyMul_eq_foldStrict (a c : Word) : polyMul a c = foldStrict (polyMulStep a c) (List.range 32) 0#32 :=
  foldl_eq_foldStrict (polyMulStep a c) (List.range 32) 0#32

/-- The 15936th power of x, by squaring the 249th six times. -/
theorem iterate_bitstep_15936 : bitstep^[15936] unitWord = 0x700BDA57#32 := by
  have h249 : bitstep^[249] unitWord = 0x6D7F4740#32 := by
    rw [show 249 = 1 + 8 * 31 by norm_num, Function.iterate_add_apply, ← accumulate_zeros, accumulate_eq_foldStrict]
    decide
  exact iterate_bitstep_unit_of_isChain 249 15936 _ _
    [0x44EA80AA#32, 0x0A53FF44#32, 0xFA1CD541#32, 0xA7A6082F#32, 0x9F6CB8BA#32, 0x700BDA57#32]
    h249 (by simp only [polyMul_eq_foldStrict]; decide) (by simp) rfl

/-- The slice's value in three parts: the 52 bytes before the padding; the padding, whose 15936 bit steps are the product
with the 15936th power of x; the payload. -/
theorem accumulate_literalSlice_parts :
    accumulate 0xFFFFFFFF#32 (field8 [0x41#8, 0x41#8] ++ field8 [0x31#8] ++ zeros 32 ++ zeros 4) = 0xCE752D6F#32 ∧
    accumulate 0xCE752D6F#32 (zeros 1992) = 0xB8DCBA5E#32 ∧
    accumulate 0xB8DCBA5E#32 [1#8, 2#8, 3#8] = 0x5D9082C0#32 := by
  refine ⟨?_, ?_, ?_⟩
  · rw [accumulate_eq_foldStrict]
    decide
  · rw [accumulate_zeros, show 8 * 1992 = 15936 by norm_num, iterate_bitstep_eq_polyMul, iterate_bitstep_15936,
      polyMul_eq_foldStrict]
    decide
  · rw [accumulate_eq_foldStrict]
    decide

/-- Settles O19: the stored word is the image's checksum of O16's example, and the slice is accumulated in its three
parts. -/
theorem literalSliceMissesTheCrc : Obligations.LiteralSliceMissesTheCrc := by
  obtain ⟨-, -, -, -, -, -, hstored⟩ := imgBuildWritesWholeImage
  obtain ⟨hbefore, hpadding, hpayload⟩ := accumulate_literalSlice_parts
  refine ⟨_, _, execImgBuild_passing State.reset rfl rfl _ _ _ (by decide) (by decide) (by decide), rfl, ?_, ?_⟩
  · rw [imageBytes_eq, crcField_headerBytes, fromLe32_le32, hstored]
  · rw [literalSlice_imageBytes, accumulate_append, accumulate_append, hbefore, hpadding, hpayload]

end Sys2Proof.Proofs
end

section
/-! SUPPORT. Proofs of the statements about the textual form of commands (spec/30_encoding.md section 6): the printed text
of a command is cut into the tokens of its operands, and the tokens are read back as the operands. -/

namespace Sys2Proof.Proofs

open Sys2Proof.Machine

/-! ### Words of a line -/

/-- Characters that the reader takes as one word. -/
def IsWordText (cs : List Char) : Prop := cs ≠ [] ∧ cs.all isWordChar = true

/-- A character of a word begins a word: it starts no comment and no string, and is no blank. -/
theorem lex_blank_wordChar (c : Char) (cs : List Char) (h : isWordChar c = true) :
    lex .blank (c :: cs) = lex (.word [c]) cs := by
  have hcomment : c ≠ '#' := by
    rintro rfl
    exact absurd h (by decide)
  have hquote : c ≠ quoteChar := by
    rintro rfl
    exact absurd h (by decide)
  have hblank : ¬ isBlankChar c = true := by
    intro hb
    have hb : (c.toNat == 0x20 || c.toNat == 0x09) = true := hb
    obtain hb | hb : c.toNat = 0x20 ∨ c.toNat = 0x09 := by simpa using hb
    all_goals
      rw [← Char.ofNat_toNat c, hb] at h
      exact absurd h (by decide)
  exact (if_neg hcomment).trans ((if_neg hblank).trans ((if_neg hquote).trans (if_pos h)))

/-- Within a word, the reader goes on through every character of a word. -/
theorem lex_word_wordChars (cs w rest : List Char) (h : cs.all isWordChar = true) :
    lex (.word w) (cs ++ rest) = lex (.word (cs.reverse ++ w)) rest := by
  induction cs generalizing w with
  | nil => rfl
  | cons c cs ih =>
    obtain ⟨hc, hcs⟩ : isWordChar c = true ∧ cs.all isWordChar = true := by simpa using h
    have hstep : lex (.word w) (c :: (cs ++ rest)) = lex (.word (c :: w)) (cs ++ rest) := if_pos hc
    rw [List.cons_append, hstep, ih _ hcs, List.reverse_cons, List.append_assoc, List.singleton_append]

/-- At the front of a line a word is read whole. -/
theorem lex_wordText (cs rest : List Char) (h : IsWordText cs) :
    lex .blank (cs ++ rest) = lex (.word cs.reverse) rest := by
  obtain ⟨hne, hall⟩ := h
  cases cs with
  | nil => exact absurd rfl hne
  | cons c cs =>
    obtain ⟨hc, hcs⟩ : isWordChar c = true ∧ cs.all isWordChar = true := by simpa using hall
    rw [List.cons_append, lex_blank_wordChar c _ hc, lex_word_wordChars cs _ _ hcs, List.reverse_cons]

/-- A word that ends the line. -/
theorem lex_wordText_end (cs : List Char) (h : IsWordText cs) : lex .blank cs = some [.word cs] := by
  have hend : lex (.word cs.reverse) [] = some [.word cs.reverse.reverse] := rfl
  rw [← List.append_nil cs, lex_wordText cs [] h, hend, List.reverse_reverse, List.append_nil]

/-- A word before a blank. -/
theorem lex_wordText_blank (cs rest : List Char) (h : IsWordText cs) :
    lex .blank (cs ++ ' ' :: rest) = (lex .blank rest).map (.word cs :: ·) := by
  have hblank : lex (.word cs.reverse) (' ' :: rest) = (lex .blank rest).map (.word cs.reverse.reverse :: ·) := rfl
  rw [lex_wordText cs _ h, hblank, List.reverse_reverse]

/-- A word before a comma. -/
theorem lex_wordText_comma (cs rest : List Char) (h : IsWordText cs) :
    lex .blank (cs ++ ',' :: rest) = (lex .blank rest).map (.word cs :: .comma :: ·) := by
  have hcomma : lex (.word cs.reverse) (',' :: rest) =
      (lex .blank rest).map (.word cs.reverse.reverse :: .comma :: ·) := rfl
  rw [lex_wordText cs _ h, hcomma, List.reverse_reverse]

/-- A word before a closing bracket. -/
theorem lex_wordText_rbrack (cs rest : List Char) (h : IsWordText cs) :
    lex .blank (cs ++ ']' :: rest) = (lex .blank rest).map (.word cs :: .rbrack :: ·) := by
  have hrbrack : lex (.word cs.reverse) (']' :: rest) =
      (lex .blank rest).map (.word cs.reverse.reverse :: .rbrack :: ·) := rfl
  rw [lex_wordText cs _ h, hrbrack, List.reverse_reverse]

/-! ### Numerals -/

/-- The printed digits are the digits the reader takes, and characters of a word. -/
theorem hexChar_spec : ∀ d < 16, hexDigit (hexChar d) = some d ∧ isWordChar (hexChar d) = true := by decide

theorem hexDigits_succ (k n : Nat) : hexDigits (k + 1) n = hexDigits k (n / 16) ++ [hexChar (n % 16)] := rfl

theorem hexDigits_all_isWordChar (k n : Nat) : (hexDigits k n).all isWordChar = true := by
  induction k generalizing n with
  | zero => rfl
  | succ k ih =>
    have hlast := (hexChar_spec (n % 16) (Nat.mod_lt _ (by omega))).2
    rw [hexDigits_succ, List.all_append, ih, Bool.true_and, List.all_cons, hlast, List.all_nil, Bool.true_and]

theorem digits_nil (base : Nat) (digit : Char → Option Nat) (n : Nat) : digits base digit n [] = some n := rfl

theorem digits_cons (base : Nat) (digit : Char → Option Nat) (n : Nat) (c : Char) (cs : List Char) :
    digits base digit n (c :: cs) = (digit c).bind fun d => digits base digit (base * n + d) cs := by
  change (match digit c with
    | some d => digits base digit (base * n + d) cs
    | none => none) = _
  cases digit c <;> rfl

/-- Digits are read from the left. -/
theorem digits_append (base : Nat) (digit : Char → Option Nat) (n : Nat) (as bs : List Char) :
    digits base digit n (as ++ bs) = (digits base digit n as).bind fun m => digits base digit m bs := by
  induction as generalizing n with
  | nil => rfl
  | cons c as ih =>
    rw [List.cons_append, digits_cons, digits_cons]
    cases digit c with
    | none => rfl
    | some d => exact ih _

/-- `k` printed digits of `n` after the number `m` shift `m` by `k` places and add the low places of `n`. -/
theorem digits_hexDigits (k n m : Nat) : digits 16 hexDigit m (hexDigits k n) = some (16 ^ k * m + n % 16 ^ k) := by
  induction k generalizing n m with
  | zero =>
    have hnone : hexDigits 0 n = [] := rfl
    rw [hnone, digits_nil, Nat.pow_zero, Nat.one_mul, Nat.mod_one, Nat.add_zero]
  | succ k ih =>
    have hlast : ∀ x, digits 16 hexDigit x [hexChar (n % 16)] = some (16 * x + n % 16) := by
      intro x
      rw [digits_cons, (hexChar_spec (n % 16) (Nat.mod_lt _ (by omega))).1, Option.bind_some, digits_nil]
    rw [hexDigits_succ, digits_append, ih, Option.bind_some, hlast, Nat.pow_succ', Nat.mod_mul]
    congr 1
    ring

/-- A printed numeral is a word of the line. -/
theorem isWordText_numeral (k n : Nat) : IsWordText ('0' :: 'x' :: hexDigits k n) :=
  ⟨nofun, hexDigits_all_isWordChar k n⟩

theorem isWordText_printByte (b : Byte) : IsWordText (printByte b) := isWordText_numeral 2 b.toNat

theorem isWordText_printU32 (v : Word) : IsWordText (printU32 v) := isWordText_numeral 8 v.toNat

/-- A printed numeral with enough digits is read back. -/
theorem numeral_hexDigits (k n : Nat) (h : n < 16 ^ (k + 1)) : numeral ('0' :: 'x' :: hexDigits (k + 1) n) = some n := by
  have hread : ∀ ds : List Char, ds ≠ [] → numeral ('0' :: 'x' :: ds) = digits 16 hexDigit 0 ds
    | [], hne => absurd rfl hne
    | _ :: _, _ => rfl
  rw [hread _ (by simp [hexDigits_succ]), digits_hexDigits, Nat.mod_eq_of_lt h, Nat.mul_zero, Nat.zero_add]

theorem numeral_printByte (b : Byte) : numeral (printByte b) = some b.toNat :=
  numeral_hexDigits 1 b.toNat b.isLt

theorem numeral_printU32 (v : Word) : numeral (printU32 v) = some v.toNat :=
  numeral_hexDigits 7 v.toNat v.isLt

theorem byteNumeral_printByte (b : Byte) : byteNumeral (printByte b) = some b := by
  delta byteNumeral
  rw [numeral_printByte]
  exact (if_pos b.isLt).trans (by rw [BitVec.ofNat_toNat, BitVec.setWidth_eq])

theorem asByte_toNat (b : Byte) : asByte (.num b.toNat) = some b :=
  (if_pos b.isLt).trans (by rw [BitVec.ofNat_toNat, BitVec.setWidth_eq])

theorem asU32_toNat (v : Word) : asU32 (.num v.toNat) = some v :=
  (if_pos (Nat.le_of_lt_succ v.isLt)).trans (by rw [BitVec.ofNat_toNat, BitVec.setWidth_eq])

/-! ### Byte lists -/

/-- The tokens of a byte list after its opening bracket. -/
def elementTokens : Bytes → List Token
  | [] => [.rbrack]
  | [b] => [.word (printByte b), .rbrack]
  | b :: c :: bs => .word (printByte b) :: .comma :: elementTokens (c :: bs)

theorem elementTokens_singleton (b : Byte) : elementTokens [b] = [.word (printByte b), .rbrack] := rfl

theorem elementTokens_cons_cons (b c : Byte) (bs : Bytes) :
    elementTokens (b :: c :: bs) = .word (printByte b) :: .comma :: elementTokens (c :: bs) := rfl

theorem printElements_singleton (b : Byte) : printElements [b] = printByte b ++ [']'] := rfl

theorem printElements_cons_cons (b c : Byte) (bs : Bytes) :
    printElements (b :: c :: bs) = printByte b ++ [',', ' '] ++ printElements (c :: bs) := rfl

theorem lex_printElements (rest : List Char) : ∀ bs : Bytes,
    lex .blank (printElements bs ++ rest) = (lex .blank rest).map (elementTokens bs ++ ·)
  | [] => rfl
  | [b] => by
    rw [printElements_singleton, List.append_assoc, List.singleton_append,
      lex_wordText_rbrack _ _ (isWordText_printByte b)]
    rfl
  | b :: c :: bs => by
    have htext : printElements (b :: c :: bs) ++ rest = printByte b ++ ',' :: ' ' :: (printElements (c :: bs) ++ rest) :=
      by simp [printElements_cons_cons]
    have hblank : lex .blank (' ' :: (printElements (c :: bs) ++ rest)) = lex .blank (printElements (c :: bs) ++ rest) :=
      rfl
    rw [htext, lex_wordText_comma _ _ (isWordText_printByte b), hblank, lex_printElements rest (c :: bs),
      Option.map_map]
    rfl

theorem byteList_last (cs : List Char) (rest : List Token) :
    byteList (.word cs :: .rbrack :: rest) = (byteNumeral cs).map fun b => ([b], rest) := by
  change (match byteNumeral cs with
    | some b => some ([b], rest)
    | none => none) = _
  cases byteNumeral cs <;> rfl

theorem byteList_comma (cs : List Char) (rest : List Token) :
    byteList (.word cs :: .comma :: rest) =
      (byteNumeral cs).bind fun b => (byteList rest).map fun p => (b :: p.1, p.2) := by
  change (match byteNumeral cs, byteList rest with
    | some b, some (bs, rest') => some (b :: bs, rest')
    | _, _ => none) = _
  cases byteNumeral cs <;> cases byteList rest <;> rfl

theorem byteList_elementTokens (rest : List Token) : ∀ (b : Byte) (bs : Bytes),
    byteList (elementTokens (b :: bs) ++ rest) = some (b :: bs, rest)
  | b, [] => by
    rw [elementTokens_singleton, List.cons_append, List.singleton_append, byteList_last, byteNumeral_printByte,
      Option.map_some]
  | b, c :: bs => by
    rw [elementTokens_cons_cons, List.cons_append, List.cons_append, byteList_comma, byteNumeral_printByte,
      Option.bind_some, byteList_elementTokens rest c bs, Option.map_some]

/-- The tokens of a bracketed byte list are read back as its bytes. -/
theorem operand_bytes (rest : List Token) : ∀ bs : Bytes,
    operand (.lbrack :: elementTokens bs ++ rest) = some (.bytes bs, rest)
  | [] => rfl
  | [b] => congrArg (Option.map _) (byteList_elementTokens rest b [])
  | b :: c :: bs => congrArg (Option.map _) (byteList_elementTokens rest b (c :: bs))

/-! ### Rows of operands -/

/-- The text of one operand, alone or before a comma: its tokens are `ts`, and they are read as `o`. -/
def ReadsAs (text : List Char) (ts : List Token) (o : Operand) : Prop :=
  (lex .blank text = some ts ∧ operand ts = some (o, [])) ∧
  (∀ rest, lex .blank (text ++ ',' :: rest) = (lex .blank rest).map (ts ++ .comma :: ·)) ∧
  (∀ us, operand (ts ++ .comma :: us) = some (o, .comma :: us))

theorem readsAs_printBytes (b : Bytes) : ReadsAs (printBytes b) (.lbrack :: elementTokens b) (.bytes b) := by
  have hlex : ∀ rest, lex .blank (printBytes b ++ rest) =
      (lex .blank rest).map (.lbrack :: elementTokens b ++ ·) := by
    intro rest
    have hopen : lex .blank (printBytes b ++ rest) = (lex .blank (printElements b ++ rest)).map (.lbrack :: ·) := rfl
    rw [hopen, lex_printElements, Option.map_map]
    rfl
  refine ⟨⟨?_, ?_⟩, fun rest => ?_, fun us => operand_bytes _ b⟩
  · have hend := hlex []
    have hnil : lex .blank [] = some [] := rfl
    rwa [List.append_nil, hnil, Option.map_some, List.append_nil] at hend
  · have hend := operand_bytes [] b
    rwa [List.append_nil] at hend
  · have hcomma : lex .blank (',' :: rest) = (lex .blank rest).map (.comma :: ·) := rfl
    rw [hlex, hcomma, Option.map_map]
    rfl

theorem readsAs_numeral (cs : List Char) (n : Nat) (h : IsWordText cs) (hn : numeral cs = some n) :
    ReadsAs cs [.word cs] (.num n) :=
  ⟨⟨lex_wordText_end cs h, congrArg (Option.map _) hn⟩, fun rest => lex_wordText_comma cs rest h,
    fun _ => congrArg (Option.map _) hn⟩

theorem readsAs_printByte (b : Byte) : ReadsAs (printByte b) [.word (printByte b)] (.num b.toNat) :=
  readsAs_numeral _ _ (isWordText_printByte b) (numeral_printByte b)

theorem readsAs_printU32 (v : Word) : ReadsAs (printU32 v) [.word (printU32 v)] (.num v.toNat) :=
  readsAs_numeral _ _ (isWordText_printU32 v) (numeral_printU32 v)

/-- The text of a row of operands is read as `os`. -/
def RowReadsAs (text : List Char) (os : List Operand) : Prop :=
  ∃ ts, lex .blank text = some ts ∧ os.length ≤ ts.length ∧ ∀ fuel, os.length ≤ fuel → operands fuel ts = some os

theorem operands_succ (fuel : Nat) (ts : List Token) :
    operands (fuel + 1) ts = match operand ts with
      | some (o, []) => some [o]
      | some (o, .comma :: us) => (operands fuel us).map (o :: ·)
      | _ => none := rfl

/-- The last operand of a row. -/
theorem operands_last (fuel : Nat) (ts : List Token) (o : Operand) (h : operand ts = some (o, [])) :
    operands (fuel + 1) ts = some [o] := by
  rw [operands_succ, h]

/-- An operand of a row before a comma. -/
theorem operands_comma (fuel : Nat) (ts us : List Token) (o : Operand) (h : operand ts = some (o, .comma :: us)) :
    operands (fuel + 1) ts = (operands fuel us).map (o :: ·) := by
  rw [operands_succ, h]

theorem operand_nil : operand [] = none := rfl

theorem rowReadsAs_single (text : List Char) (ts : List Token) (o : Operand) (h : ReadsAs text ts o) :
    RowReadsAs text [o] := by
  obtain ⟨⟨hlex, hread⟩, -⟩ := h
  refine ⟨ts, hlex, ?_, fun fuel hfuel => ?_⟩
  · cases ts with
    | nil => cases operand_nil.symm.trans hread
    | cons => simp
  · obtain ⟨fuel, rfl⟩ : ∃ k, fuel = k + 1 := ⟨fuel - 1, by simp at hfuel; omega⟩
    exact operands_last fuel ts o hread

theorem rowReadsAs_cons (text text' : List Char) (ts : List Token) (o : Operand) (os : List Operand)
    (h : ReadsAs text ts o) (hrow : RowReadsAs text' os) : RowReadsAs (text ++ ',' :: ' ' :: text') (o :: os) := by
  obtain ⟨-, hlex, hread⟩ := h
  obtain ⟨us, hlex', hlength, hrest⟩ := hrow
  refine ⟨ts ++ .comma :: us, ?_, ?_, fun fuel hfuel => ?_⟩
  · have hblank : lex .blank (' ' :: text') = lex .blank text' := rfl
    rw [hlex, hblank, hlex', Option.map_some]
  · simp only [List.length_cons, List.length_append]
    omega
  · obtain ⟨fuel, rfl⟩ : ∃ k, fuel = k + 1 := ⟨fuel - 1, by simp at hfuel; omega⟩
    have hfuel' : os.length ≤ fuel := Nat.le_of_succ_le_succ hfuel
    rw [operands_comma fuel _ us o (hread us), hrest fuel hfuel', Option.map_some]

/-! ### Lines -/

/-- A line whose first token is a word: the bare mnemonic, or the mnemonic and its row of operands. -/
theorem assembleLine_of_lex (line m : List Char) (ts : List Token) (h : lex .blank line = some (.word m :: ts)) :
    (ts = [] → assembleLine line = assemble m []) ∧
    (∀ os, ts ≠ [] → operands ts.length ts = some os → assembleLine line = assemble m os) := by
  delta assembleLine
  rw [h]
  constructor
  · rintro rfl
    rfl
  · intro os hne hos
    cases ts with
    | nil => exact absurd rfl hne
    | cons t ts => simp only [hos]

theorem assembleLine_mnemonic (m : List Char) (h : IsWordText m) : assembleLine m = assemble m [] :=
  (assembleLine_of_lex m m [] (lex_wordText_end m h)).1 rfl

theorem assembleLine_row (m text : List Char) (o : Operand) (os : List Operand) (h : IsWordText m)
    (hrow : RowReadsAs text (o :: os)) : assembleLine (m ++ ' ' :: text) = assemble m (o :: os) := by
  obtain ⟨ts, hlex, hlength, hread⟩ := hrow
  have hne : ts ≠ [] := by
    rintro rfl
    simp at hlength
  have hline : lex .blank (m ++ ' ' :: text) = some (.word m :: ts) := by
    rw [lex_wordText_blank m text h, hlex, Option.map_some]
  exact (assembleLine_of_lex _ m ts hline).2 _ hne (hread _ hlength)

/-- A mnemonic of one operand that is read back. -/
theorem assembleLine_one {α : Type} (m text : List Char) (o : Operand) (read : Operand → Option α)
    (make : α → List Instr) (a : α) (hm : IsWordText m) (hrow : RowReadsAs text [o])
    (hassemble : assemble m [o] = (read o).map make) (hread : read o = some a) :
    assembleLine (m ++ ' ' :: text) = some (make a) := by
  rw [assembleLine_row m text o [] hm hrow, hassemble, hread, Option.map_some]

/-- A line of three operands, as it is printed. -/
theorem assembleLine_three (m t1 t2 t3 : List Char) (ts1 ts2 ts3 : List Token) (o1 o2 o3 : Operand)
    (hm : IsWordText m) (h1 : ReadsAs t1 ts1 o1) (h2 : ReadsAs t2 ts2 o2) (h3 : ReadsAs t3 ts3 o3) :
    assembleLine (m ++ [' '] ++ t1 ++ [',', ' '] ++ t2 ++ [',', ' '] ++ t3) = assemble m [o1, o2, o3] := by
  have hrow := rowReadsAs_cons t1 _ ts1 o1 _ h1 (rowReadsAs_cons t2 t3 ts2 o2 _ h2 (rowReadsAs_single t3 ts3 o3 h3))
  rw [← assembleLine_row m _ o1 [o2, o3] hm hrow]
  simp only [List.append_assoc, List.cons_append, List.nil_append]

/-- Settles O49: a printed line is its mnemonic and the texts of its operands, which are read back one by one. -/
theorem printedCommandAssembles : Obligations.PrintedCommandAssembles := by
  intro i
  cases i with
  | crcSeed v =>
    exact assembleLine_one ['c', 'r', 'c', '.', 's', 'e', 'e', 'd'] _ _ asU32 (fun v => [.crcSeed v]) v
      ⟨nofun, by decide⟩ (rowReadsAs_single _ _ _ (readsAs_printU32 v)) rfl (asU32_toNat v)
  | crcByte b =>
    exact assembleLine_one ['c', 'r', 'c', '.', 'b', 'y', 't', 'e'] _ _ asByte (fun b => [.crcByte b]) b
      ⟨nofun, by decide⟩ (rowReadsAs_single _ _ _ (readsAs_printByte b)) rfl (asByte_toNat b)
  | crcAccum d =>
    exact assembleLine_one ['c', 'r', 'c', '.', 'a', 'c', 'c', 'u', 'm'] _ _ asBytes (fun d => [.crcAccum d]) d
      ⟨nofun, by decide⟩ (rowReadsAs_single _ _ _ (readsAs_printBytes d)) rfl rfl
  | crcRead => rfl
  | hdrEncode m v n =>
    refine (assembleLine_three ['h', 'd', 'r', '.', 'e', 'n', 'c', 'o', 'd', 'e'] _ _ _ _ _ _ _ _ _
      ⟨nofun, by decide⟩ (readsAs_printBytes m) (readsAs_printBytes v) (readsAs_printU32 n)).trans ?_
    change assembleEncode [.bytes m, .bytes v, .num n.toNat] = _
    delta assembleEncode
    dsimp only
    rw [asU32_toNat]
    rfl
  | hdrSerialize => rfl
  | hdrSetcrc v =>
    exact assembleLine_one ['h', 'd', 'r', '.', 's', 'e', 't', 'c', 'r', 'c'] _ _ asU32 (fun v => [.hdrSetcrc v]) v
      ⟨nofun, by decide⟩ (rowReadsAs_single _ _ _ (readsAs_printU32 v)) rfl (asU32_toNat v)
  | imgBuild m v p =>
    exact (assembleLine_three ['i', 'm', 'g', '.', 'b', 'u', 'i', 'l', 'd'] _ _ _ _ _ _ _ _ _
      ⟨nofun, by decide⟩ (readsAs_printBytes m) (readsAs_printBytes v) (readsAs_printBytes p)).trans rfl

/-! ### The bare mnemonic of a byte row (R72) -/

/-- Settles O52: the bare mnemonic expands to no command; on a seeded accumulator that is the empty byte row of
`execAll_crcBytes`, on an unseeded one CRC.ACCUM finds the empty mark. -/
theorem emptyByteRowIsNoCommand : Obligations.EmptyByteRowIsNoCommand := by
  refine ⟨?_, fun _ => rfl, fun s c hs h => execAll_crcBytes [] s c hs h, fun s hs h => ?_⟩
  · exact assembleLine_mnemonic ['c', 'r', 'c', '.', 'b', 'y', 't', 'e', 's'] ⟨nofun, by decide⟩
  · exact exec_takes_expectedFault (.crcAccum []) s .accUnseeded 0#2 hs (if_pos h)

end Sys2Proof.Proofs
end
